-- ==== Sys2Proof/Word.lean ====
section
/-! DEFINITION. The byte, the one width of the hardware (`00_scope.md` R6 `XLEN`, R7): every register, memory cell, address
and operand is an unsigned 8-bit value, and arithmetic on it wraps modulo 256 (R8). -/

namespace Sys2Proof

/-- An unsigned 8-bit value (R7). `+` and `-` on it wrap modulo 256, `<` and `≤` compare unsigned. -/
abbrev Byte := BitVec 8

end Sys2Proof
end

