-- ==== Sys2Proof/Config.lean ====
section
/-! DEFINITION. The parameters the source itself fixes (`00_scope.md` R6, rows marked "source"). The parameters the source
leaves to the implementer stand where a repair may mend them: the opcode values in `Decode.lean`, the stack top and the
reset pc in `Machine/Params.lean`. The spec leaves no value free, so there is no opaque constant. -/

namespace Sys2Proof.Config

/-- `NREGS`: the number of general registers (R6, R11). -/
abbrev nRegs : Nat := 8

/-- `MEM_SIZE`: the number of memory cells (R6, R31). -/
abbrev memSize : Nat := 256

end Sys2Proof.Config

namespace Sys2Proof

/-- A register index 0 to 7 (R11). -/
abbrev Reg := Fin Config.nRegs

/-- `SP_INDEX`: register 7 is the stack pointer (R6, R12). -/
abbrev Config.spIndex : Reg := 7

end Sys2Proof
end

