-- ==== Sys2Proof/Syntax.lean ====
section
/-! DEFINITION. The fifteen instructions (`30_encoding.md` R49), one constructor per row of the opcode table. An operand is
the raw operand byte (R52): which register bytes are legal is `WellFormed.lean`'s business (R53). -/

namespace Sys2Proof

/-- An instruction with its raw operand bytes. `a` and `b` are register bytes; LDI's second operand is an immediate (R52). -/
inductive Instr where
  /-- HLT (R64). -/
  | hlt
  /-- LDI Ra, Vb (R67). -/
  | ldi (a imm : Byte)
  /-- PRN Ra (R68). -/
  | prn (a : Byte)
  /-- PUSH Ra (R70). -/
  | push (a : Byte)
  /-- POP Ra (R71). -/
  | pop (a : Byte)
  /-- CALL Ra (R72). -/
  | call (a : Byte)
  /-- RET (R73). -/
  | ret
  /-- ADD Ra, Rb (R77). -/
  | add (a b : Byte)
  /-- SUB Ra, Rb (R78). -/
  | sub (a b : Byte)
  /-- MUL Ra, Rb (R79). -/
  | mul (a b : Byte)
  /-- DIV Ra, Rb (R80). -/
  | div (a b : Byte)
  /-- CMP Ra, Rb (R81). -/
  | cmp (a b : Byte)
  /-- JMP Ra (R84). -/
  | jmp (a : Byte)
  /-- JEQ Ra (R85). -/
  | jeq (a : Byte)
  /-- JNE Ra (R86). -/
  | jne (a : Byte)
deriving DecidableEq, Repr

end Sys2Proof
end

