-- ==== Sys2Proof/WellFormed.lean ====
section
/-! DEFINITION. Which instructions are legal encodings (`30_encoding.md` R53): every operand byte that the format declares as
a register index is at most 7. An immediate is never checked (R67), nor is a byte the format does not declare (R54). -/

namespace Sys2Proof

/-- The operand bytes that the instruction's format declares as register indices, field `a` before field `b` (R48, R53). -/
def Instr.registerFields : Instr → List Byte
  | .hlt => []
  | .ldi a _ => [a]
  | .prn a => [a]
  | .push a => [a]
  | .pop a => [a]
  | .call a => [a]
  | .ret => []
  | .add a b => [a, b]
  | .sub a b => [a, b]
  | .mul a b => [a, b]
  | .div a b => [a, b]
  | .cmp a b => [a, b]
  | .jmp a => [a]
  | .jeq a => [a]
  | .jne a => [a]

/-- `CheckRegs` of R61: every declared register byte is at most 7. -/
def Instr.wellFormed (i : Instr) : Bool := i.registerFields.all fun r => decide (r.toNat < Config.nRegs)

/-- The instruction is a legal encoding (R53). -/
abbrev Instr.WellFormed (i : Instr) : Prop := i.wellFormed = true

end Sys2Proof
end

