-- ==== Sys2Proof/Decode.lean ====
section
/-! DEFINITION. The decoder and, after it, the encoder (`30_encoding.md` R47 to R55, `40_dispatch.md` R60, R61). -/

namespace Sys2Proof

/-- The instruction triple `(op, a, b)` that every fetch reads (R48, R59). -/
structure Triple where
  op : Byte
  a : Byte
  b : Byte
deriving DecidableEq, Repr

/-- The triple at the front of a byte sequence laid out from `pc` upward (R35, R48); bytes past the end count as 0. -/
def Triple.ofBytes (bytes : List Byte) : Triple := ⟨bytes.getD 0 0, bytes.getD 1 0, bytes.getD 2 0⟩

/-! The opcode values `OPC_*` (R49). HLT, LDI and PRN are the source's (its section 8). The other twelve are PRESUMED: the
spec supplies them from general knowledge (decision D6, passage G1; log 6; unsafe for claims about raw bytes). -/

def opcHlt : Byte := 0x01#8
def opcLdi : Byte := 0x82#8
def opcPrn : Byte := 0x47#8
def opcPush : Byte := 0x45#8
def opcPop : Byte := 0x46#8
def opcCall : Byte := 0x50#8
def opcRet : Byte := 0x11#8
def opcAdd : Byte := 0xA0#8
def opcSub : Byte := 0xA1#8
def opcMul : Byte := 0xA2#8
def opcDiv : Byte := 0xA3#8
def opcCmp : Byte := 0xA7#8
def opcJmp : Byte := 0x54#8
def opcJeq : Byte := 0x55#8
def opcJne : Byte := 0x56#8

/-- The fifteen opcode bytes, in the order of R49's table. -/
def opcodes : List Byte :=
  [opcHlt, opcLdi, opcPrn, opcPush, opcPop, opcCall, opcRet, opcAdd, opcSub, opcMul, opcDiv, opcCmp, opcJmp, opcJeq, opcJne]

/-- The four formats of R47: no operand, one register, register and immediate, two registers. -/
inductive Format where
  | z
  | r
  | ri
  | rr
deriving DecidableEq, Repr

/-- The length in bytes of an instruction of the format (R47). -/
def Format.width : Format → Nat
  | .z => 1
  | .r => 2
  | .ri => 3
  | .rr => 3

/-- Why the decoder refuses a triple. -/
inductive DecodeError where
  /-- The opcode byte is none of the fifteen (R55). -/
  | unrecognizedOpcode
  /-- A declared register byte is above 7 (R53). -/
  | registerAbove7
deriving DecidableEq, Repr

/-- What the decoder answers. -/
inductive Decoded where
  | ok (i : Instr)
  | reject (why : DecodeError)
deriving DecidableEq, Repr

/-- The opcode map of R49, row by row, with the operand bytes of a triple filled in where the format of the row declares them;
a byte it does not declare is dropped (R54). -/
def opcodeRows (a b : Byte) : List (Byte × Instr) :=
  [(opcHlt, .hlt), (opcLdi, .ldi a b), (opcPrn, .prn a), (opcPush, .push a), (opcPop, .pop a), (opcCall, .call a),
   (opcRet, .ret), (opcAdd, .add a b), (opcSub, .sub a b), (opcMul, .mul a b), (opcDiv, .div a b), (opcCmp, .cmp a b),
   (opcJmp, .jmp a), (opcJeq, .jeq a), (opcJne, .jne a)]

/-- R60, R50: `op` is compared for equality of all eight bits with each of the fifteen values. -/
def matchOpcode (t : Triple) : Option Instr :=
  ((opcodeRows t.a t.b).find? fun row => decide (row.1 = t.op)).map Prod.snd

/-- The decoder, total on every triple: the opcode match of R60, then the operand check of R53 and R61 "at decode". -/
def decode (t : Triple) : Decoded :=
  match matchOpcode t with
  | none => .reject .unrecognizedOpcode
  | some i => if i.wellFormed then .ok i else .reject .registerAbove7

/-- The opcode byte of an instruction (R49). -/
def Instr.opcode : Instr → Byte
  | .hlt => opcHlt
  | .ldi _ _ => opcLdi
  | .prn _ => opcPrn
  | .push _ => opcPush
  | .pop _ => opcPop
  | .call _ => opcCall
  | .ret => opcRet
  | .add _ _ => opcAdd
  | .sub _ _ => opcSub
  | .mul _ _ => opcMul
  | .div _ _ => opcDiv
  | .cmp _ _ => opcCmp
  | .jmp _ => opcJmp
  | .jeq _ => opcJeq
  | .jne _ => opcJne

/-- The format of an instruction (R47, R49). -/
def Instr.format : Instr → Format
  | .hlt => .z
  | .ldi _ _ => .ri
  | .prn _ => .r
  | .push _ => .r
  | .pop _ => .r
  | .call _ => .r
  | .ret => .z
  | .add _ _ => .rr
  | .sub _ _ => .rr
  | .mul _ _ => .rr
  | .div _ _ => .rr
  | .cmp _ _ => .rr
  | .jmp _ => .r
  | .jeq _ => .r
  | .jne _ => .r

/-- The length of an instruction in bytes (R47). -/
def Instr.width (i : Instr) : Nat := i.format.width

/-- The encoder: the bytes of an instruction in ascending address order (R35, R48, R49). -/
def encode : Instr → List Byte
  | .hlt => [0x01#8]
  | .ldi a imm => [0x82#8, a, imm]
  | .prn a => [0x47#8, a]
  | .push a => [0x45#8, a]
  | .pop a => [0x46#8, a]
  | .call a => [0x50#8, a]
  | .ret => [0x11#8]
  | .add a b => [0xA0#8, a, b]
  | .sub a b => [0xA1#8, a, b]
  | .mul a b => [0xA2#8, a, b]
  | .div a b => [0xA3#8, a, b]
  | .cmp a b => [0xA7#8, a, b]
  | .jmp a => [0x54#8, a]
  | .jeq a => [0x55#8, a]
  | .jne a => [0x56#8, a]

/-- Byte `k` of a table word: bits `8k+7` to `8k` of `w` where the row has them, else 0. -/
def tableByte (nbits w k : Nat) : Byte := if 8 * k < nbits then BitVec.ofNat 8 (w / 2 ^ (8 * k)) else 0

/-- The three bytes of a table word at ascending addresses, the first at the lowest (R35). Three is the longest length (R47). -/
def tableBytes (nbits w : Nat) : List Byte := [tableByte nbits w 0, tableByte nbits w 1, tableByte nbits w 2]

/-- The instruction the decoder reads from a word of `spec/opcode_table.json`. -/
def decodeTableWord (nbits w : Nat) : Option Instr :=
  match decode (Triple.ofBytes (tableBytes nbits w)) with
  | .ok i => some i
  | .reject _ => none

end Sys2Proof
end

