-- ==== Sys2Proof/Machine/Params.lean ====
section
/-! DEFINITION. The reset-time parameters of `00_scope.md` R6. They stand in a file of their own, apart from `State.lean`, so
that a later repair may mend a value. -/

namespace Sys2Proof.Machine

/-- `STACK_TOP`: the value of `x[7]` at reset (R29). DESIGN CHOICE, the spec's own decision D1: the source names 0xF4 "by
convention" (log 1). -/
def stackTop : Byte := 0xF4#8

/-- `RESET_PC`: the program counter at reset (R6, R106). -/
def resetPc : Byte := 0x00#8

/-- `LOAD_BASE`: where the first program byte is placed (R6, R107). -/
def loadBase : Byte := 0x00#8

end Sys2Proof.Machine
end

