-- ==== Sys2Proof/Machine/State.lean ====
section
/-! DEFINITION. The whole state of the Machine (`10_state.md` R11 to R30), as plain data, and its reset value (R29). -/

namespace Sys2Proof.Machine

/-- The run state (R23). HALTED and ERROR are terminal and never identified (R93). -/
inductive RunState where
  | running
  | halted
  | error
deriving DecidableEq, Repr

/-- The three fault causes of the hardware (`60_exceptions.md` R88). A fault of the hardware is a NEXT state of the model
(R92), not an answer of type `Fault`. -/
inductive Cause where
  /-- The opcode byte is none of the fifteen (R89). -/
  | invalidOpcode
  /-- DIV with a zero divisor (R91). -/
  | divideByZero
  /-- A declared register byte above 7 (R90). -/
  | invalidRegisterIndex
deriving DecidableEq, Repr

/-- The fault record (R24). -/
structure FaultRecord where
  cause : Cause
  opcode : Byte
  pc : Byte
deriving DecidableEq, Repr

/-- The three condition flags `FL.L`, `FL.G`, `FL.E` (R19): three booleans with no packed layout (R21; log 18). -/
structure Flags where
  lessThan : Bool
  greaterThan : Bool
  equal : Bool
deriving DecidableEq, Repr

/-- The 256 cells of R31 as pairs (address, byte) at rising addresses; an unlisted cell reads 0 and no cell holding 0 is
listed (`Memory.wf` in `Ops.lean`; log 14). -/
abbrev Memory := List Host.Cell

/-- The state of the Machine: exactly the nine pieces of R30. -/
structure State where
  /-- The general registers `x[0]` to `x[7]` (R11); `x[7]` is the stack pointer (R12). -/
  x : Vector Byte Config.nRegs
  /-- The program counter (R16). -/
  pc : Byte
  /-- The flags (R19). -/
  fl : Flags
  /-- The memory (R26, R31). -/
  mem : Memory
  /-- The run state (R23). -/
  run : RunState
  /-- The fault record, `none` while RUNNING or HALTED (R24). -/
  fault : Option FaultRecord
  /-- The output stream, oldest first (R25). -/
  out : List Byte
deriving DecidableEq, Repr

/-- Why `step` has no next state. No instruction raises one of these: the hardware's own faults are next states (R92). -/
inductive Fault where
  /-- Raised by `step` when `run = HALTED`: "A Machine whose `run` is HALTED or ERROR has no step" (R66; log 13). Safe. -/
  | noStepHalted
  /-- Raised by `step` when `run = ERROR` (R66, R96; log 13). Safe. -/
  | noStepError
deriving DecidableEq, Repr

/-- Why an instruction has no meaning. No arm of `exec` answers one: every instruction of the table is modelled. -/
inductive Refusal where
  /-- Answered by an arm of `exec` for an instruction not modelled yet, by its mnemonic; safe. None is left. -/
  | notModelled (mnemonic : String)
deriving DecidableEq, Repr

/-- What a meaning answers. -/
abbrev Result := Host.Outcome State Fault Refusal

/-- The reset state (R29, R106) for the empty image. `Load.lean`'s `State.init` is reset with an image (log 15). -/
def State.reset : State where
  x := #v[0, 0, 0, 0, 0, 0, 0, stackTop]
  pc := resetPc
  fl := ⟨false, false, false⟩
  mem := []
  run := .running
  fault := none
  out := []

end Sys2Proof.Machine
end

