-- ==== Sys2Proof/Machine/Ops.lean ====
section
/-! DEFINITION. The named operations over memory, registers, the program counter, the output stream and the run state, and
fault entry as one shared operation. Meanings are written over these and nothing else. -/

namespace Sys2Proof.Machine

/-! ## Memory (`20_memory.md` R31, R33) -/

/-- What a cell that is not listed holds: memory is "initialized to zero" (R31). -/
def Memory.unlisted : Byte := 0

/-- The byte listed at an address, or `unlisted`. -/
def Memory.lookup : Memory → Nat → Byte
  | [], _ => Memory.unlisted
  | (j, w) :: m, k => if j = k then w else Memory.lookup m k

/-- Removes the entry of an address. -/
def Memory.erase : Memory → Nat → Memory
  | [], _ => []
  | (j, w) :: m, k => if j = k then Memory.erase m k else (j, w) :: Memory.erase m k

/-- Puts an entry at its place in the rising order, over an entry of the same address. -/
def Memory.insert : Memory → Nat → Byte → Memory
  | [], k, v => [(k, v)]
  | (j, w) :: m, k, v =>
    if k < j then (k, v) :: (j, w) :: m
    else if k = j then (k, v) :: m
    else (j, w) :: Memory.insert m k v

/-- `MemRead(addr, 1)` (R33): total, changes nothing. -/
def Memory.read (m : Memory) (addr : Byte) : Byte := Memory.lookup m addr.toNat

/-- `MemWrite(addr, 1, v)` (R33): total. Writing what an unlisted cell reads as removes the entry. -/
def Memory.write (m : Memory) (addr v : Byte) : Memory :=
  if v = Memory.unlisted then Memory.erase m addr.toNat else Memory.insert m addr.toNat v

/-- The canonical form from an address on: strictly rising addresses below `MEM_SIZE`, no entry equal to `unlisted`. -/
def Memory.wfFrom : Nat → Memory → Bool
  | _, [] => true
  | lo, (k, v) :: m => decide (lo ≤ k) && decide (k < Config.memSize) && decide (v ≠ Memory.unlisted) && Memory.wfFrom (k + 1) m

/-- The canonical form of a memory: equal memories are equal data. -/
def Memory.wf (m : Memory) : Bool := Memory.wfFrom 0 m

/-! ## Registers (`10_state.md` R11, R12, R14) -/

namespace State

/-- `x[r]`. -/
def reg (s : State) (r : Reg) : Byte := s.x[r]

/-- `x[r] <- v`. No register is hard-wired or read-only (R12). -/
def setReg (s : State) (r : Reg) (v : Byte) : State := { s with x := s.x.set r v }

/-- The stack pointer `x[7]` (R12). -/
def sp (s : State) : Byte := s.reg Config.spIndex

/-- `x[7] <- trunc8(x[7] - 1)`, the first half of a push (`20_memory.md` R46). -/
def decSp (s : State) : State := s.setReg Config.spIndex (s.sp - 1)

/-- `x[7] <- trunc8(x[7] + 1)`, the second half of a pop (R46). -/
def incSp (s : State) : State := s.setReg Config.spIndex (s.sp + 1)

/-! ## Memory through the state -/

/-- `MemRead(addr, 1)`. -/
def load (s : State) (addr : Byte) : Byte := Memory.read s.mem addr

/-- `MemWrite(addr, 1, v)`. -/
def store (s : State) (addr v : Byte) : State := { s with mem := Memory.write s.mem addr v }

/-- The second half of a push: the byte goes to the cell the decremented `x[7]` names (R46). -/
def storeAtSp (s : State) (v : Byte) : State := s.store s.sp v

/-- The first half of a pop: the byte of the cell `x[7]` names before the increment (R46). -/
def loadAtSp (s : State) : Byte := s.load s.sp

/-! ## Program counter, output, run state -/

/-- `pc <- target`. -/
def setPc (s : State) (target : Byte) : State := { s with pc := target }

/-- `pc <- trunc8(pc + n)`: the sequential advance (R17), wrapping at the top of memory (R18; log 2). -/
def advance (s : State) (n : Byte) : State := s.setPc (s.pc + n)

/-- `Output(v)`: appends to the output stream (R25). -/
def output (s : State) (v : Byte) : State := { s with out := s.out ++ [v] }

/-- `run <- HALTED` (R23, R64). -/
def halt (s : State) : State := { s with run := .halted }

/-! ## Fault entry (`60_exceptions.md` R92) -/

/-- `raise F(op, pc)`: run becomes ERROR and the record takes the cause, the opcode byte and the pc of the faulting
instruction; nothing else changes. There is no vector, handler, saved context or mode change (R92), and no return beside it:
"There is no return from a fault and no nesting" (R96). Called before any write of its instruction (R10), so faults are
precise (log 8). -/
def raise (s : State) (cause : Cause) (op : Byte) : State := { s with run := .error, fault := some ⟨cause, op, s.pc⟩ }

/-- Only a RUNNING state has a step (R62, R66): a terminal state answers a fault of the model that names it (log 13). -/
def requireRunning (s : State) (body : Result) : Result :=
  match s.run with
  | .running => body
  | .halted => .fault .noStepHalted
  | .error => .fault .noStepError

end State

/-- The cause codes `CAUSE_*` (R88; DESIGN CHOICE, the spec's own decision D7; log 7): internal labels, never 0. -/
def Cause.code : Cause → Nat
  | .invalidOpcode => 1
  | .divideByZero => 2
  | .invalidRegisterIndex => 3

end Sys2Proof.Machine
end

