-- ==== Sys2Proof/Machine/Flags.lean ====
section
/-! DEFINITION. The flag computation of CMP, the only writer, and the one condition that JEQ and JNE, the only readers, test
(`10_state.md` R19, R20; `44_alu.md` R81; `45_jumps.md` R85, R86). -/

namespace Sys2Proof.Machine

/-- `FL.L <- va < vb`, `FL.G <- va > vb`, `FL.E <- va = vb`, unsigned (R81). -/
def compareFlags (va vb : Byte) : Flags := ⟨decide (va < vb), decide (vb < va), decide (va = vb)⟩

/-- Writes all three flags: "the previous flag values are overwritten entirely" (R81). -/
def State.setFlags (s : State) (f : Flags) : State := { s with fl := f }

/-- The condition `FL.E = 1` (R85). -/
def State.equalSet (s : State) : Bool := s.fl.equal

end Sys2Proof.Machine
end

