-- ==== Sys2Proof/Machine/Operands.lean ====
section
/-! DEFINITION. The operand forms of `30_encoding.md` R52 and R53: a register byte and an immediate byte. There is no other
(no memory operand, displacement or pc-relative offset). -/

namespace Sys2Proof.Machine

/-- The register a raw operand byte names: 0 to 7 name a register, a larger byte names none and is not masked (R53). -/
def regOperand (byte : Byte) : Option Reg := if h : byte.toNat < Config.nRegs then some ⟨byte.toNat, h⟩ else none

/-- LDI's second operand: the byte itself, not extended, scaled or shifted (R52). -/
def immediate (byte : Byte) : Byte := byte

/-- A register field of the instruction with opcode `op`: goes on with the register, or raises `InvalidRegisterIndex` before
the instruction does anything (R53, R61; log 4). -/
def withReg (op byte : Byte) (s : State) (body : Reg → Result) : Result :=
  match regOperand byte with
  | some r => body r
  | none => .next (s.raise .invalidRegisterIndex op)

/-- The two register fields of format RR, `a` checked before `b` (R53, R61). -/
def withTwoRegs (op a b : Byte) (s : State) (body : Reg → Reg → Result) : Result :=
  withReg op a s fun ra => withReg op b s fun rb => body ra rb

end Sys2Proof.Machine
end

