-- ==== Sys2Proof/Machine/Alu.lean ====
section
/-! DEFINITION. The ALU as a pure function of the operation and two values (`44_alu.md` R75), and the shared execution of the
five ALU instructions. -/

namespace Sys2Proof.Machine

/-- The closed set of ALU operations (R76). -/
inductive AluOp where
  | add
  | sub
  | mul
  | div
  | cmp
deriving DecidableEq, Repr

/-- What the ALU answers (R75): a value for the register of operand a or of operand b, the flags, or a zero divisor. -/
inductive AluResult where
  | toA (v : Byte)
  | toB (v : Byte)
  | flags (f : Flags)
  | divideByZero
deriving DecidableEq, Repr

/-- `trunc8` of an exact natural number (`00_scope.md` R8). -/
def trunc8 (v : Nat) : Byte := BitVec.ofNat 8 v

/-- ALU(ADD): the exact sum, truncated (R77). -/
def aluAdd (va vb : Byte) : AluResult := .toA (trunc8 (va.toNat + vb.toNat))

/-- ALU(MUL): the exact product, truncated (R79). -/
def aluMul (va vb : Byte) : AluResult := .toA (trunc8 (va.toNat * vb.toNat))

/-- ALU(SUB): the larger minus the smaller, into the operand that held the larger; a tie goes to a (R78; DESIGN CHOICE, the
spec's own decision D5; log 5). -/
def aluSub (va vb : Byte) : AluResult :=
  if vb.toNat ≤ va.toNat then .toA (trunc8 (va.toNat - vb.toNat)) else .toB (trunc8 (vb.toNat - va.toNat))

/-- ALU(DIV): the larger divided by the smaller, quotient rounded toward zero, into the operand that held the larger; a zero
divisor has no result (R80; DESIGN CHOICE, the spec's own decisions D3 and D5; log 3, log 5). -/
def aluDiv (va vb : Byte) : AluResult :=
  if vb.toNat ≤ va.toNat then
    if vb.toNat = 0 then .divideByZero else .toA (trunc8 (va.toNat / vb.toNat))
  else
    if va.toNat = 0 then .divideByZero else .toB (trunc8 (vb.toNat / va.toNat))

/-- ALU(CMP): the flags (R81). -/
def aluCmp (va vb : Byte) : AluResult := .flags (compareFlags va vb)

/-- The ALU (R75). It reads nothing but the operation and its two values. -/
def alu : AluOp → Byte → Byte → AluResult
  | .add, va, vb => aluAdd va vb
  | .sub, va, vb => aluSub va vb
  | .mul, va, vb => aluMul va vb
  | .div, va, vb => aluDiv va vb
  | .cmp, va, vb => aluCmp va vb

/-- Applies an ALU result for the operand registers `ra`, `rb`: all five advance `pc` by 3 when they do not fault. -/
def applyAlu (opcode : Byte) (ra rb : Reg) (s : State) : AluResult → State
  | .toA v => (s.setReg ra v).advance 3
  | .toB v => (s.setReg rb v).advance 3
  | .flags f => (s.setFlags f).advance 3
  | .divideByZero => s.raise .divideByZero opcode

/-- The shared execution of format RR: both operands are read before anything is written (R83). -/
def execAlu (op : AluOp) (opcode a b : Byte) (s : State) : Result :=
  withTwoRegs opcode a b s fun ra rb => .next (applyAlu opcode ra rb s (alu op (s.reg ra) (s.reg rb)))

end Sys2Proof.Machine
end

