-- ==== Sys2Proof/Machine/Arithmetic.lean ====
section
/-! DEFINITION. ADD, SUB, MUL, DIV, CMP (`44_alu.md` R77 to R81). -/

namespace Sys2Proof.Machine

/-- ADD Ra, Rb (R77). -/
def execAdd (a b : Byte) (s : State) : Result := execAlu .add opcAdd a b s

/-- SUB Ra, Rb (R78). -/
def execSub (a b : Byte) (s : State) : Result := execAlu .sub opcSub a b s

/-- MUL Ra, Rb (R79). -/
def execMul (a b : Byte) (s : State) : Result := execAlu .mul opcMul a b s

/-- DIV Ra, Rb (R80). -/
def execDiv (a b : Byte) (s : State) : Result := execAlu .div opcDiv a b s

/-- CMP Ra, Rb (R81). -/
def execCmp (a b : Byte) (s : State) : Result := execAlu .cmp opcCmp a b s

end Sys2Proof.Machine
end

