-- ==== Sys2Proof/Machine/Jump.lean ====
section
/-! DEFINITION. JMP, JEQ, JNE (`45_jumps.md` R84 to R87). The register check comes first, taken or not (R85, R86). -/

namespace Sys2Proof.Machine

/-- `pc <- x[ra]` when the condition holds, else `pc <- trunc8(pc + 2)`. -/
def State.jumpIf (s : State) (cond : Bool) (ra : Reg) : State := if cond then s.setPc (s.reg ra) else s.advance 2

/-- JMP Ra (R84). -/
def execJmp (a : Byte) (s : State) : Result := withReg opcJmp a s fun ra => .next (s.jumpIf true ra)

/-- JEQ Ra (R85): jumps when EQUAL is set. -/
def execJeq (a : Byte) (s : State) : Result := withReg opcJeq a s fun ra => .next (s.jumpIf s.equalSet ra)

/-- JNE Ra (R86): jumps when EQUAL is clear. -/
def execJne (a : Byte) (s : State) : Result := withReg opcJne a s fun ra => .next (s.jumpIf (!s.equalSet) ra)

end Sys2Proof.Machine
end

