-- ==== Sys2Proof/Machine/LoadPrint.lean ====
section
/-! DEFINITION. HLT, LDI, PRN (`40_dispatch.md` R64, `41_ldi_prn.md` R67, R68). -/

namespace Sys2Proof.Machine

/-- HLT (R64): `run <- HALTED`; `pc` stays at the HLT (the spec's own decision D9; log 9). -/
def execHlt (s : State) : Result := .next s.halt

/-- LDI Ra, Vb (R67): `x[a] <- b`. -/
def execLdi (a imm : Byte) (s : State) : Result :=
  withReg opcLdi a s fun ra => .next ((s.setReg ra (immediate imm)).advance 3)

/-- PRN Ra (R68): `Output(x[a])`. -/
def execPrn (a : Byte) (s : State) : Result :=
  withReg opcPrn a s fun ra => .next ((s.output (s.reg ra)).advance 2)

end Sys2Proof.Machine
end

