-- ==== Sys2Proof/Machine/Stack.lean ====
section
/-! DEFINITION. PUSH, POP (`42_stack.md` R69 to R71) and CALL, RET (`43_call_ret.md` R72, R73), over the one stack discipline
of `20_memory.md` R46. The order is that of `90_conflicts.md` C1 (log 12); operand registers are read at the place the
pseudocode reads them, which matters for `a = 7` (the spec's own decision D14; log 11). -/

namespace Sys2Proof.Machine

/-- PUSH Ra (R70): decrement, then store `x[a]`, read after the decrement. -/
def execPush (a : Byte) (s : State) : Result :=
  withReg opcPush a s fun ra => .next ((s.decSp.storeAtSp (s.decSp.reg ra)).advance 2)

/-- POP Ra (R71): `x[a]` takes the byte, then `x[7]` is incremented (after `x[a]` was written). -/
def execPop (a : Byte) (s : State) : Result :=
  withReg opcPop a s fun ra => .next ((s.setReg ra s.loadAtSp).incSp.advance 2)

/-- The return address CALL stores: `trunc8(pc + 2)`, the instruction after the CALL (R72). -/
def returnAddress (s : State) : Byte := s.pc + 2

/-- CALL Ra (R72): decrement, store the return address, then `pc <- x[a]`, read last. -/
def execCall (a : Byte) (s : State) : Result :=
  withReg opcCall a s fun ra =>
    let pushed := s.decSp.storeAtSp (returnAddress s)
    .next (pushed.setPc (pushed.reg ra))

/-- RET (R73): read the return address, increment, set `pc`. -/
def execRet (s : State) : Result := .next (s.incSp.setPc s.loadAtSp)

end Sys2Proof.Machine
end

