-- ==== Sys2Proof/Machine/Cycle.lean ====
section
/-! DEFINITION. One fetch-decode-execute cycle of a RUNNING machine (`40_dispatch.md` R59 to R62). -/

namespace Sys2Proof.Machine

/-- Fetch (R59): three bytes at `pc`, `pc + 1`, `pc + 2`, modulo 256 (`20_memory.md` R34; log 2), whatever the opcode. -/
def State.fetch (s : State) : Triple := ⟨s.load s.pc, s.load (s.pc + 1), s.load (s.pc + 2)⟩

/-- The hardware's cause for a triple the decoder refuses (R89, R90). -/
def decodeCause : DecodeError → Cause
  | .unrecognizedOpcode => .invalidOpcode
  | .registerAbove7 => .invalidRegisterIndex

/-- Fetch, decode, execute (R62): a refused triple raises its fault, an instruction runs its handler. -/
def State.cycle (s : State) : Result :=
  match decode s.fetch with
  | .ok i => exec i s
  | .reject why => .next (s.raise (decodeCause why) s.fetch.op)

/-- Stores bytes at consecutive addresses from `addr` upward, modulo 256. -/
def State.storeBytes (s : State) (addr : Byte) : List Byte → State
  | [] => s
  | v :: vs => State.storeBytes (s.store addr v) (addr + 1) vs

end Sys2Proof.Machine
end

