-- ==== Sys2Proof/Machine/Step.lean ====
section
/-! DEFINITION. The step function (`40_dispatch.md` R62, R66). -/

namespace Sys2Proof.Machine

/-- One step: defined when `run = RUNNING` (R62); a terminal state has none (R66). -/
def step (s : State) : Host.Outcome State Fault Refusal := s.requireRunning s.cycle

/-- The state with a word of `spec/opcode_table.json` at `pc`, where the next step fetches (three bytes, the longest length). -/
def State.withFetchWord (s : State) (nbits w : Nat) : State := s.storeBytes s.pc (tableBytes nbits w)

end Sys2Proof.Machine
end

