-- ==== Sys2Proof/Machine/Load.lean ====
section
/-! DEFINITION. Reset with a program image, `Init(image)` (`70_reset_and_hazards.md` R105 to R108). It belongs to the host's
side of the boundary: no instruction calls it. -/

namespace Sys2Proof.Machine

/-- What `Init` answers. -/
inductive LoadResult where
  /-- The reset state with the image in memory (R106). -/
  | loaded (s : State)
  /-- The image has more than 256 bytes: "the load is refused and nothing runs" (R108, decision D10; log 10). -/
  | imageTooLong
deriving DecidableEq, Repr

/-- `Init(image)` (R106): byte `k` of the image goes to `mem[k]` (R107), all else is as at reset (R29). -/
def State.init (image : List Byte) : LoadResult :=
  if image.length ≤ Config.memSize then .loaded (State.reset.storeBytes loadBase image) else .imageTooLong

end Sys2Proof.Machine
end

