-- ==== Sys2Proof/Machine/Run.lean ====
section
/-! DEFINITION. `Run()` under a step budget (`40_dispatch.md` R63; `70_reset_and_hazards.md` R116: the budget is the model's
own device), and what an observer and the host may read (`60_exceptions.md` R93, R102, R104). -/

namespace Sys2Proof.Machine

/-- At most `n` steps, taken "while `run = RUNNING`" (R63): a terminal state is kept as it is (R103). -/
def runFor : Nat → State → Result
  | 0, s => .next s
  | n + 1, s =>
    match s.run with
    | .running =>
      match step s with
      | .next t => runFor n t
      | .fault r => .fault r
      | .refused r => .refused r
    | .halted => .next s
    | .error => .next s

/-- What the trace observer may see before a step (R102). It is a function of the state and changes nothing. -/
structure TraceView where
  pc : Byte
  fl : Flags
  triple : Triple
  x : Vector Byte Config.nRegs
deriving DecidableEq, Repr

/-- The observer's view of a state (R102). -/
def State.traceView (s : State) : TraceView := ⟨s.pc, s.fl, s.fetch, s.x⟩

/-- What the host reports at the end of a run (R93). -/
inductive ExitStatus where
  /-- "Successful HLT exits with status 0". -/
  | zero
  /-- ERROR: "exits non-zero"; the number is the host's. -/
  | nonZero
deriving DecidableEq, Repr

/-- The report of a run state; a RUNNING machine has none (R93). -/
def RunState.exitStatus : RunState → Option ExitStatus
  | .running => none
  | .halted => some .zero
  | .error => some .nonZero

end Sys2Proof.Machine
end

