-- ==== Sys2Proof/Safety.lean ====
section
/-! DEFINITION. What claims are stated in: the end of a run, its success, and the invariant of the Machine. -/

namespace Sys2Proof.Machine

/-- A run from `s` ends at `t`: `t` is not RUNNING and some number of steps reaches it (`70_reset_and_hazards.md` R111). -/
def EndsAt (s t : State) : Prop := t.run ≠ .running ∧ ∃ n, runFor n s = .next t

/-- "A claim that a program 'runs to completion' must require `run = HALTED`" (`40_dispatch.md` R66). -/
def Completes (s : State) : Prop := ∃ t, EndsAt s t ∧ t.run = .halted

/-- At most one flag is set: the values R19 of `10_state.md` calls reachable. -/
def Flags.Reachable (f : Flags) : Prop :=
  f = ⟨false, false, false⟩ ∨ f = ⟨true, false, false⟩ ∨ f = ⟨false, true, false⟩ ∨ f = ⟨false, false, true⟩

/-- The condition R88 of `60_exceptions.md` gives for a cause, read in the state `s` at its own `pc`. -/
def CauseHolds (s : State) : Cause → Prop
  | .invalidOpcode => decode s.fetch = .reject .unrecognizedOpcode
  | .invalidRegisterIndex => decode s.fetch = .reject .registerAbove7
  | .divideByZero => ∃ a b ra rb, decode s.fetch = .ok (.div a b) ∧ regOperand a = some ra ∧ regOperand b = some rb ∧
      min (s.reg ra).toNat (s.reg rb).toNat = 0

/-- The fault record tells the truth: it is present exactly in ERROR (R24), names the opcode byte at `pc` and `pc` itself
(R92), and the condition of its cause holds in the very state, since a fault changes nothing else. -/
def FaultRecordTrue (s : State) : Prop :=
  (s.run = .error ↔ s.fault.isSome) ∧ ∀ f, s.fault = some f → f.opcode = s.load s.pc ∧ f.pc = s.pc ∧ CauseHolds s f.cause

/-- The invariant of the Machine: memory is in canonical form, the flags are one of R19's four values, the fault record tells
the truth, and a HALTED machine stands at a HLT (R64, R111). -/
structure Inv (s : State) : Prop where
  memory : Memory.wf s.mem = true
  flags : s.fl.Reachable
  record : FaultRecordTrue s
  halted : s.run = .halted → s.load s.pc = opcHlt

end Sys2Proof.Machine
end

