-- ==== Sys2Proof/Certificates/Slice0/Obligations.lean ====
section
/-! DEFINITION. The statements for the provers, from the numbered rules of the spec. The values of the twelve opcodes other
than HLT, LDI and PRN are the spec's own (decision D6, log 6): a statement that names one of those bytes says so. -/

namespace Sys2Proof.Claims

open Sys2Proof.Machine

/-! ## The words the statements are written in -/

/-- The raw operand byte names the register (`30_encoding.md` R52). A byte above 7 names none. -/
def Names (byte : Byte) (r : Reg) : Prop := byte.toNat = r.val

/-- Every general register but those listed is unchanged. -/
def KeepsRegsBut (rs : List Reg) (s t : State) : Prop := ∀ r, r ∉ rs → t.reg r = s.reg r

/-- Every byte of memory reads as before. -/
def KeepsMemory (s t : State) : Prop := ∀ addr, t.load addr = s.load addr

/-- Every byte of memory but the one at `stored` reads as before. -/
def KeepsMemoryBut (stored : Byte) (s t : State) : Prop := ∀ addr, addr ≠ stored → t.load addr = s.load addr

/-- The run state and the fault record are unchanged. -/
def KeepsStatus (s t : State) : Prop := t.run = s.run ∧ t.fault = s.fault

/-- `pc` advances by the width `n`, modulo 256 (`10_state.md` R17). -/
def Advances (n : Nat) (s t : State) : Prop := t.pc.toNat = (s.pc.toNat + n) % 256

/-- Fault entry (`60_exceptions.md` R92): ERROR with the record, and nothing else changed. -/
def Raised (cause : Cause) (op : Byte) (s t : State) : Prop :=
  t.run = .error ∧ t.fault = some ⟨cause, op, s.pc⟩ ∧
  KeepsRegsBut [] s t ∧ t.pc = s.pc ∧ t.fl = s.fl ∧ KeepsMemory s t ∧ t.out = s.out

/-- The bytes stand at `pc` and upward, modulo 256 (`30_encoding.md` R48, `20_memory.md` R34). -/
def AtPc (s : State) (bytes : List Byte) : Prop :=
  ∀ k (h : k < bytes.length), s.load (BitVec.ofNat 8 (s.pc.toNat + k)) = bytes[k]

/-- Whenever the bytes stand at the `pc` of a RUNNING machine, whatever follows them, the step is the instruction's. -/
def RunsAs (bytes : List Byte) (i : Instr) : Prop := ∀ s : State, s.run = .running → AtPc s bytes → step s = exec i s

/-- Both answers are next states that agree in everything but the flags. -/
def AgreeButFlags (r₁ r₂ : Result) : Prop := ∃ t₁ t₂ : State, r₁ = .next t₁ ∧ r₂ = .next t₂ ∧ t₁ = { t₂ with fl := t₁.fl }

/-- The registers an instruction may write in a state, the table of `10_state.md` R13. -/
def MayWrite (s : State) (r : Reg) : Instr → Prop
  | .hlt => False
  | .ldi a _ => Names a r
  | .prn _ => False
  | .push _ => r = 7
  | .pop a => Names a r ∨ r = 7
  | .call _ => r = 7
  | .ret => r = 7
  | .add a _ => Names a r
  | .sub a b => ∃ ra rb, Names a ra ∧ Names b rb ∧ r = if (s.reg rb).toNat ≤ (s.reg ra).toNat then ra else rb
  | .mul a _ => Names a r
  | .div a b => ∃ ra rb, Names a ra ∧ Names b rb ∧ r = if (s.reg rb).toNat ≤ (s.reg ra).toNat then ra else rb
  | .cmp _ _ => False
  | .jmp _ => False
  | .jeq _ => False
  | .jne _ => False

end Sys2Proof.Claims

open Sys2Proof Sys2Proof.Machine Sys2Proof.Claims

/-! ## Encoding -/

/-- `30_encoding.md` R47 to R54: every well-formed instruction, followed by any bytes at all, decodes back to itself. The
twelve opcode values (D6, log 6) and the ignored undeclared bytes (D16, log 17) are the spec's own. -/
def Obligations.EncodedInstructionsDecodeBack : Prop :=
  ∀ (i : Instr) (rest : List Byte), i.WellFormed → decode (Triple.ofBytes (encode i ++ rest)) = .ok i

/-- The other direction: what the decoder accepts is well formed, and its encoding is the first bytes of the triple, as many as
the width of its format (R47, R48, R51). -/
def Obligations.DecodedTriplesAreEncodings : Prop :=
  ∀ (op a b : Byte) (i : Instr), decode ⟨op, a, b⟩ = .ok i → i.WellFormed ∧ encode i = [op, a, b].take i.width

/-- Words written out from R49, one of each family: HLT; LDI R0,8 (the source's bits); PRN R0; PUSH R1; POP R7; CALL R1; RET;
ADD R0,R1; DIV R2,R0; CMP R0,R1; JMP R2; JNE R3. The bytes of the twelve opcodes are the spec's own (D6, log 6). -/
def Obligations.SampleWordsOfEveryFamilyDecode : Prop :=
  decode ⟨0b00000001#8, 0xFF#8, 0xFF#8⟩ = .ok .hlt ∧
  decode ⟨0b10000010#8, 0b00000000#8, 0b00001000#8⟩ = .ok (.ldi 0 8) ∧
  decode ⟨0b01000111#8, 0b00000000#8, 0x00#8⟩ = .ok (.prn 0) ∧
  decode ⟨0b01000101#8, 0b00000001#8, 0xFF#8⟩ = .ok (.push 1) ∧
  decode ⟨0b01000110#8, 0b00000111#8, 0x00#8⟩ = .ok (.pop 7) ∧
  decode ⟨0b01010000#8, 0b00000001#8, 0x47#8⟩ = .ok (.call 1) ∧
  decode ⟨0b00010001#8, 0x09#8, 0x09#8⟩ = .ok .ret ∧
  decode ⟨0b10100000#8, 0b00000000#8, 0b00000001#8⟩ = .ok (.add 0 1) ∧
  decode ⟨0b10100011#8, 0b00000010#8, 0b00000000#8⟩ = .ok (.div 2 0) ∧
  decode ⟨0b10100111#8, 0b00000000#8, 0b00000001#8⟩ = .ok (.cmp 0 1) ∧
  decode ⟨0b01010100#8, 0b00000010#8, 0x00#8⟩ = .ok (.jmp 2) ∧
  decode ⟨0b01010110#8, 0b00000011#8, 0x01#8⟩ = .ok (.jne 3)

/-- R55: the unrecognized opcode bytes are all but the fifteen listed, whatever the operand bytes. Twelve of the fifteen values
are the spec's own (D6, log 6). -/
def Obligations.OnlyTheListedOpcodeBytesAreRecognized : Prop :=
  ∀ op a b : Byte, decode ⟨op, a, b⟩ = .reject .unrecognizedOpcode ↔
    op ∉ [0x01#8, 0x11#8, 0x45#8, 0x46#8, 0x47#8, 0x50#8, 0x54#8, 0x55#8, 0x56#8, 0x82#8, 0xA0#8, 0xA1#8, 0xA2#8, 0xA3#8, 0xA7#8]

/-- R53 (the spec's own decision D4, log 4): a recognized opcode with a declared register byte above 7 is refused by the
decoder, and the byte is not masked. -/
def Obligations.RegisterBytesAboveSevenAreRefused : Prop :=
  ∀ (i : Instr) (rest : List Byte), ¬ i.WellFormed → decode (Triple.ofBytes (encode i ++ rest)) = .reject .registerAbove7

/-! ## The step -/

/-- `40_dispatch.md` R59 to R62: a RUNNING machine runs the instruction that the three bytes at `pc`, `pc + 1`, `pc + 2` decode
to; the handler itself advances `pc`. The wrap of the addresses is the spec's own (D2, log 2). -/
def Obligations.StepRunsTheDecodedInstruction : Prop :=
  ∀ (s : State) (i : Instr), s.run = .running →
    decode ⟨s.load s.pc, s.load (BitVec.ofNat 8 ((s.pc.toNat + 1) % 256)), s.load (BitVec.ofNat 8 ((s.pc.toNat + 2) % 256))⟩ = .ok i →
    step s = exec i s

/-- `40_dispatch.md` R65: an opcode byte that is no instruction's raises InvalidOpcode, whatever the operand bytes; the run has
ended and is reported as a failure. -/
def Obligations.UnrecognizedOpcodeEndsInError : Prop :=
  ∀ s : State, s.run = .running → (∀ i : Instr, i.opcode ≠ s.load s.pc) →
    ∃ t, step s = .next t ∧ Raised .invalidOpcode (s.load s.pc) s t ∧ t.run.exitStatus = some .nonZero ∧ ∀ u, step t ≠ .next u

/-- `30_encoding.md` R53, `60_exceptions.md` R90 (the spec's own decision D4, log 4): a declared register byte above 7 raises
InvalidRegisterIndex before any effect, for the handler (log 13) and for the step, a conditional jump not taken included. -/
def Obligations.IllegalRegisterByteEndsInError : Prop :=
  (∀ (i : Instr) (s : State), ¬ i.WellFormed → ∃ t, exec i s = .next t ∧ Raised .invalidRegisterIndex i.opcode s t) ∧
  (∀ (i : Instr) (s : State), ¬ i.WellFormed → s.run = .running → AtPc s (encode i) →
    ∃ t, step s = .next t ∧ Raised .invalidRegisterIndex (s.load s.pc) s t)

/-- `44_alu.md` R80, `60_exceptions.md` R91 (the spec's own decision D3, log 3; opcode value D6, log 6): DIV raises
DivideByZero exactly where the smaller operand is zero, and writes nothing. -/
def Obligations.DivisionByZeroEndsInError : Prop :=
  ∀ (a b : Byte) (ra rb : Reg) (s : State), Names a ra → Names b rb → min (s.reg ra).toNat (s.reg rb).toNat = 0 →
    ∃ t, exec (.div a b) s = .next t ∧ Raised .divideByZero 0xA3#8 s t

/-- `60_exceptions.md` R88, R92, R95 (the spec's own decisions D3, D4, D8, D21; log 3, 4, 8, 16): a step raises a fault exactly
when the condition of its cause holds, and that fault; "No other event faults". -/
def Obligations.StepFaultsExactlyInTheThreeCases : Prop :=
  ∀ s : State, s.run = .running → ∃ t, step s = .next t ∧
    (∀ c, CauseHolds s c → Raised c (s.load s.pc) s t) ∧
    ((∀ c, ¬ CauseHolds s c) → t.run ≠ .error ∧ t.fault = s.fault)

/-- `40_dispatch.md` R66, `60_exceptions.md` R96: HALTED and ERROR have no step and a run stays there. That the missing step is
answered by a named fault is the model's form (log 13). -/
def Obligations.TerminalStatesHaveNoStep : Prop :=
  ∀ s : State,
    (s.run = .halted → step s = .fault .noStepHalted ∧ ∀ n, runFor n s = .next s) ∧
    (s.run = .error → step s = .fault .noStepError ∧ ∀ n, runFor n s = .next s)

/-- `10_state.md` R30, `40_dispatch.md` R62: every handler is total: no instruction, on any operand bytes in any state, ends in
a refusal or in a fault of the model. -/
def Obligations.EveryInstructionAnswersANextState : Prop :=
  ∀ (i : Instr) (s : State), ∃ t, exec i s = .next t

/-- `70_reset_and_hazards.md` R111, `40_dispatch.md` R64: a step ends in HALTED exactly when the opcode byte is HLT's, and then
`pc` still holds its address (the spec's own decision D9, log 9). -/
def Obligations.StepHaltsExactlyOnHlt : Prop :=
  ∀ s t : State, step s = .next t →
    (t.run = .halted ↔ s.load s.pc = 0x01#8) ∧ (t.run = .halted → t.pc = s.pc)

/-! ## The fifteen instructions: result, frame and encoding -/

/-- `40_dispatch.md` R64. That `pc` stays is the spec's own decision D9 (log 9). -/
def Obligations.HltEntersHaltedAndChangesNothingElse : Prop :=
  (∀ s : State, ∃ t, exec .hlt s = .next t ∧ t.run = .halted ∧ t.fault = s.fault ∧
    KeepsRegsBut [] s t ∧ t.pc = s.pc ∧ t.fl = s.fl ∧ KeepsMemory s t ∧ t.out = s.out) ∧
  RunsAs [0x01#8] .hlt

/-- `41_ldi_prn.md` R67: `x[a] <- b`, `pc` +3; a register byte above 7 faults; the immediate is never checked. The fault on a
register byte above 7 is the spec's own decision D4 (log 4), that it changes nothing else D8 (log 8), and the wrap of `pc` and of
the fetch addresses D2 (log 2). -/
def Obligations.LdiLoadsItsImmediate : Prop :=
  ∀ a imm : Byte,
    (∀ (ra : Reg) (s : State), Names a ra →
      ∃ t, exec (.ldi a imm) s = .next t ∧ t.reg ra = imm ∧ KeepsRegsBut [ra] s t ∧ Advances 3 s t ∧
        t.fl = s.fl ∧ KeepsMemory s t ∧ t.out = s.out ∧ KeepsStatus s t) ∧
    (∀ s : State, 7 < a.toNat → ∃ t, exec (.ldi a imm) s = .next t ∧ Raised .invalidRegisterIndex 0x82#8 s t) ∧
    RunsAs [0x82#8, a, imm] (.ldi a imm)

/-- `41_ldi_prn.md` R68: the output stream gets `x[a]` at its end, `pc` +2; a register byte above 7 faults. The fault on a
register byte above 7 is the spec's own decision D4 (log 4), that it changes nothing else D8 (log 8), and the wrap of `pc` and of
the fetch addresses D2 (log 2). -/
def Obligations.PrnAppendsTheRegisterToTheOutput : Prop :=
  ∀ a : Byte,
    (∀ (ra : Reg) (s : State), Names a ra →
      ∃ t, exec (.prn a) s = .next t ∧ t.out = s.out ++ [s.reg ra] ∧ KeepsRegsBut [] s t ∧ Advances 2 s t ∧
        t.fl = s.fl ∧ KeepsMemory s t ∧ KeepsStatus s t) ∧
    (∀ s : State, 7 < a.toNat → ∃ t, exec (.prn a) s = .next t ∧ Raised .invalidRegisterIndex 0x47#8 s t) ∧
    RunsAs [0x47#8, a] (.prn a)

/-- `42_stack.md` R70: the pointer is decremented, then `x[a]` is stored where it points. That `PUSH R7` stores the decremented
pointer is the spec's own decision D14 (log 11); the opcode value is D6 (log 6). -/
def Obligations.PushDecrementsThenStores : Prop :=
  (∀ (a : Byte) (ra : Reg) (s : State), Names a ra →
    ∃ t, exec (.push a) s = .next t ∧ (t.reg 7).toNat = ((s.reg 7).toNat + 255) % 256 ∧ s.decSp.sp = t.reg 7 ∧
      t.load s.decSp.sp = (if ra = 7 then t.reg 7 else s.reg ra) ∧ KeepsMemoryBut s.decSp.sp s t ∧
      KeepsRegsBut [7] s t ∧ Advances 2 s t ∧ t.fl = s.fl ∧ t.out = s.out ∧ KeepsStatus s t) ∧
  (∀ a : Byte, RunsAs [0x45#8, a] (.push a))

/-- `42_stack.md` R71: `x[a]` takes the byte at the pointer, then the pointer is incremented; memory is not changed. That
`POP R7` ends at the popped byte plus one is the spec's own decision D14 (log 11); the opcode value is D6 (log 6). -/
def Obligations.PopLoadsThenIncrements : Prop :=
  (∀ (a : Byte) (ra : Reg) (s : State), Names a ra →
    ∃ t, exec (.pop a) s = .next t ∧
      (ra ≠ 7 → t.reg ra = s.load (s.reg 7) ∧ (t.reg 7).toNat = ((s.reg 7).toNat + 1) % 256) ∧
      (ra = 7 → (t.reg 7).toNat = ((s.load (s.reg 7)).toNat + 1) % 256) ∧
      KeepsRegsBut [ra, 7] s t ∧ KeepsMemory s t ∧ Advances 2 s t ∧ t.fl = s.fl ∧ t.out = s.out ∧ KeepsStatus s t) ∧
  (∀ a : Byte, RunsAs [0x46#8, a] (.pop a))

/-- `43_call_ret.md` R72: the pointer is decremented, `pc + 2` is stored where it points, and `pc` becomes `x[a]`, read last
(D14, log 11, for `CALL R7`); the opcode value is D6 (log 6) and the wrap of `pc + 2` D2 (log 2), the spec's own. -/
def Obligations.CallStoresTheReturnAddressAndJumps : Prop :=
  (∀ (a : Byte) (ra : Reg) (s : State), Names a ra →
    ∃ t, exec (.call a) s = .next t ∧ (t.reg 7).toNat = ((s.reg 7).toNat + 255) % 256 ∧ s.decSp.sp = t.reg 7 ∧
      (t.load s.decSp.sp).toNat = (s.pc.toNat + 2) % 256 ∧ KeepsMemoryBut s.decSp.sp s t ∧
      t.pc = (if ra = 7 then t.reg 7 else s.reg ra) ∧
      KeepsRegsBut [7] s t ∧ t.fl = s.fl ∧ t.out = s.out ∧ KeepsStatus s t) ∧
  (∀ a : Byte, RunsAs [0x50#8, a] (.call a))

/-- `43_call_ret.md` R73: `pc` becomes the byte at the pointer, which is then incremented. The opcode value is D6 (log 6). -/
def Obligations.RetPopsThePc : Prop :=
  (∀ s : State, ∃ t, exec .ret s = .next t ∧ t.pc = s.load (s.reg 7) ∧
    (t.reg 7).toNat = ((s.reg 7).toNat + 1) % 256 ∧ KeepsRegsBut [7] s t ∧ KeepsMemory s t ∧
    t.fl = s.fl ∧ t.out = s.out ∧ KeepsStatus s t) ∧
  RunsAs [0x11#8] .ret

/-- `44_alu.md` R77, R83: `x[a] <- (x[a] + x[b]) mod 256`, also when both bytes name one register. Opcode value D6 (log 6). -/
def Obligations.AddWritesTheSumModulo256 : Prop :=
  (∀ (a b : Byte) (ra rb : Reg) (s : State), Names a ra → Names b rb →
    ∃ t, exec (.add a b) s = .next t ∧ (t.reg ra).toNat = ((s.reg ra).toNat + (s.reg rb).toNat) % 256 ∧
      KeepsRegsBut [ra] s t ∧ Advances 3 s t ∧ t.fl = s.fl ∧ KeepsMemory s t ∧ t.out = s.out ∧ KeepsStatus s t) ∧
  (∀ a b : Byte, RunsAs [0xA0#8, a, b] (.add a b))

/-- `44_alu.md` R78 (the spec's own decision D5, log 5; opcode value D6, log 6): the larger minus the smaller goes to the
register that held the larger, `a` on a tie; exactly one register is written. -/
def Obligations.SubWritesTheDifferenceOverTheLarger : Prop :=
  (∀ (a b : Byte) (ra rb : Reg) (s : State), Names a ra → Names b rb →
    ∃ t, exec (.sub a b) s = .next t ∧
      ((s.reg ra).toNat ≥ (s.reg rb).toNat →
        (t.reg ra).toNat = (s.reg ra).toNat - (s.reg rb).toNat ∧ KeepsRegsBut [ra] s t) ∧
      ((s.reg ra).toNat < (s.reg rb).toNat →
        (t.reg rb).toNat = (s.reg rb).toNat - (s.reg ra).toNat ∧ KeepsRegsBut [rb] s t) ∧
      Advances 3 s t ∧ t.fl = s.fl ∧ KeepsMemory s t ∧ t.out = s.out ∧ KeepsStatus s t) ∧
  (∀ a b : Byte, RunsAs [0xA1#8, a, b] (.sub a b))

/-- `44_alu.md` R79, R83: `x[a] <- (x[a] * x[b]) mod 256`. Opcode value D6 (log 6). -/
def Obligations.MulWritesTheProductModulo256 : Prop :=
  (∀ (a b : Byte) (ra rb : Reg) (s : State), Names a ra → Names b rb →
    ∃ t, exec (.mul a b) s = .next t ∧ (t.reg ra).toNat = ((s.reg ra).toNat * (s.reg rb).toNat) % 256 ∧
      KeepsRegsBut [ra] s t ∧ Advances 3 s t ∧ t.fl = s.fl ∧ KeepsMemory s t ∧ t.out = s.out ∧ KeepsStatus s t) ∧
  (∀ a b : Byte, RunsAs [0xA2#8, a, b] (.mul a b))

/-- `44_alu.md` R80 (the spec's own decision D5, log 5; opcode value D6, log 6): with a smaller operand other than zero, the
quotient of the larger by the smaller goes to the register that held the larger, `a` on a tie. -/
def Obligations.DivWritesTheQuotientOverTheLarger : Prop :=
  (∀ (a b : Byte) (ra rb : Reg) (s : State), Names a ra → Names b rb → min (s.reg ra).toNat (s.reg rb).toNat ≠ 0 →
    ∃ t, exec (.div a b) s = .next t ∧
      ((s.reg ra).toNat ≥ (s.reg rb).toNat →
        (t.reg ra).toNat = (s.reg ra).toNat / (s.reg rb).toNat ∧ KeepsRegsBut [ra] s t) ∧
      ((s.reg ra).toNat < (s.reg rb).toNat →
        (t.reg rb).toNat = (s.reg rb).toNat / (s.reg ra).toNat ∧ KeepsRegsBut [rb] s t) ∧
      Advances 3 s t ∧ t.fl = s.fl ∧ KeepsMemory s t ∧ t.out = s.out ∧ KeepsStatus s t) ∧
  (∀ a b : Byte, RunsAs [0xA3#8, a, b] (.div a b))

/-- `44_alu.md` R81: exactly one flag is set, by the unsigned order of the two values, and the old flags play no part. Opcode
value D6 (log 6). -/
def Obligations.CmpSetsExactlyOneFlag : Prop :=
  (∀ (a b : Byte) (ra rb : Reg) (s : State), Names a ra → Names b rb →
    ∃ t, exec (.cmp a b) s = .next t ∧
      ((s.reg ra).toNat < (s.reg rb).toNat → t.fl = ⟨true, false, false⟩) ∧
      ((s.reg ra).toNat > (s.reg rb).toNat → t.fl = ⟨false, true, false⟩) ∧
      ((s.reg ra).toNat = (s.reg rb).toNat → t.fl = ⟨false, false, true⟩) ∧
      KeepsRegsBut [] s t ∧ Advances 3 s t ∧ KeepsMemory s t ∧ t.out = s.out ∧ KeepsStatus s t) ∧
  (∀ a b : Byte, RunsAs [0xA7#8, a, b] (.cmp a b))

/-- `45_jumps.md` R84. Opcode value D6 (log 6). -/
def Obligations.JmpSetsThePcFromTheRegister : Prop :=
  (∀ (a : Byte) (ra : Reg) (s : State), Names a ra →
    ∃ t, exec (.jmp a) s = .next t ∧ t.pc = s.reg ra ∧ KeepsRegsBut [] s t ∧
      t.fl = s.fl ∧ KeepsMemory s t ∧ t.out = s.out ∧ KeepsStatus s t) ∧
  (∀ a : Byte, RunsAs [0x54#8, a] (.jmp a))

/-- `45_jumps.md` R85: taken if and only if EQUAL is set, else `pc` +2. Opcode value D6 (log 6). -/
def Obligations.JeqJumpsWhenEqualIsSet : Prop :=
  (∀ (a : Byte) (ra : Reg) (s : State), Names a ra →
    ∃ t, exec (.jeq a) s = .next t ∧
      (s.fl.equal = true → t.pc = s.reg ra) ∧ (s.fl.equal = false → Advances 2 s t) ∧ KeepsRegsBut [] s t ∧
      t.fl = s.fl ∧ KeepsMemory s t ∧ t.out = s.out ∧ KeepsStatus s t) ∧
  (∀ a : Byte, RunsAs [0x55#8, a] (.jeq a))

/-- `45_jumps.md` R86: taken if and only if EQUAL is clear, else `pc` +2. Opcode value D6 (log 6). -/
def Obligations.JneJumpsWhenEqualIsClear : Prop :=
  (∀ (a : Byte) (ra : Reg) (s : State), Names a ra →
    ∃ t, exec (.jne a) s = .next t ∧
      (s.fl.equal = false → t.pc = s.reg ra) ∧ (s.fl.equal = true → Advances 2 s t) ∧ KeepsRegsBut [] s t ∧
      t.fl = s.fl ∧ KeepsMemory s t ∧ t.out = s.out ∧ KeepsStatus s t) ∧
  (∀ a : Byte, RunsAs [0x56#8, a] (.jne a))

/-! ## Rules about the whole machine -/

/-- `10_state.md` R20: only CMP writes the flags; only JEQ and JNE read them, and they read EQUAL alone: for any other
instruction the flags before play no part in anything else, and for every instruction LESS_THAN and GREATER_THAN play none. -/
def Obligations.FlagsAreWrittenByCmpAndReadByConditionalJumps : Prop :=
  (∀ (i : Instr) (s t : State), exec i s = .next t → (∀ a b, i ≠ .cmp a b) → t.fl = s.fl) ∧
  (∀ (i : Instr) (s : State) (f : Flags), (∀ a, i ≠ .jeq a) → (∀ a, i ≠ .jne a) →
    AgreeButFlags (exec i { s with fl := f }) (exec i s)) ∧
  (∀ (i : Instr) (s : State) (f : Flags), f.equal = s.fl.equal → AgreeButFlags (exec i { s with fl := f }) (exec i s))

/-- `10_state.md` R25, `41_ldi_prn.md` R68: the stream only grows at its end, by one value and only by PRN, and nothing reads
it: with another stream the instruction does the same. -/
def Obligations.OutputIsAppendedByPrnAloneAndNeverRead : Prop :=
  ∀ (i : Instr) (s : State), ∃ (t : State) (emitted : List Byte), exec i s = .next t ∧ t.out = s.out ++ emitted ∧
    (emitted = [] ∨ ∃ a ra, i = .prn a ∧ Names a ra ∧ emitted = [s.reg ra]) ∧
    ∀ o : List Byte, exec i { s with out := o } = .next { t with out := o ++ emitted }

/-- `20_memory.md` R32: the only way a program writes memory is PUSH and CALL, in the one cell the decremented pointer names. -/
def Obligations.MemoryIsWrittenOnlyByPushAndCall : Prop :=
  ∀ (i : Instr) (s t : State) (addr : Byte), exec i s = .next t → t.load addr ≠ s.load addr →
    ((∃ a, i = .push a) ∨ (∃ a, i = .call a)) ∧ addr = s.decSp.sp

/-- `10_state.md` R13: a register changes only where the table of R13 lets the instruction write it (the destination of SUB and
DIV is the spec's own decision D5, log 5). -/
def Obligations.RegistersChangeOnlyAsTheTableSays : Prop :=
  ∀ (i : Instr) (s t : State) (r : Reg), exec i s = .next t → t.reg r ≠ s.reg r → MayWrite s r i

/-- `20_memory.md` R44, `70_reset_and_hazards.md` R113: a byte stored by PUSH or CALL is seen by the fetch of the very next
instruction, at each of its three addresses; every other fetched byte is the old one. -/
def Obligations.StoresAreSeenByTheNextFetch : Prop :=
  ∀ (a : Byte) (ra : Reg) (s t : State), Names a ra →
    let seen := fun (stored addr : Byte) => if addr = s.decSp.sp then stored else s.load addr
    (exec (.push a) s = .next t →
      t.fetch = ⟨seen (s.decSp.reg ra) t.pc, seen (s.decSp.reg ra) (t.pc + 1), seen (s.decSp.reg ra) (t.pc + 2)⟩) ∧
    (exec (.call a) s = .next t →
      t.fetch = ⟨seen (s.pc + 2) t.pc, seen (s.pc + 2) (t.pc + 1), seen (s.pc + 2) (t.pc + 2)⟩)

/-- The law of `42_stack.md` R71: PUSH then POP of the same register restores every register, the pointer included, for each of
the eight registers (for R7 by the spec's own decision D14, log 11). -/
def Obligations.PushThenPopRestoresEveryRegister : Prop :=
  ∀ (a : Byte) (ra : Reg) (s : State), Names a ra →
    ∃ t u, exec (.push a) s = .next t ∧ exec (.pop a) t = .next u ∧ KeepsRegsBut [] s u ∧
      Advances 4 s u ∧ u.fl = s.fl ∧ u.out = s.out ∧ KeepsStatus s u

/-- `43_call_ret.md` R74: a RET in any later state that has the pointer and the stored byte as CALL left them resumes at the
instruction after the CALL, with the pointer as before the CALL. -/
def Obligations.RetResumesAfterTheCall : Prop :=
  ∀ (a : Byte) (ra : Reg) (s t u : State), Names a ra → exec (.call a) s = .next t →
    u.reg 7 = t.reg 7 → u.load (u.reg 7) = t.load (t.reg 7) →
    ∃ w, exec .ret u = .next w ∧ Advances 2 s w ∧ w.reg 7 = s.reg 7

/-- `40_dispatch.md` R62, R63, `70_reset_and_hazards.md` R116: the step function is total, so a run under any step budget, from
any state, reaches a state: no instruction, operand or byte in memory stops it short with a fault or a refusal of the model. -/
def Obligations.EveryBoundedRunReachesAState : Prop :=
  ∀ (n : Nat) (s : State), ∃ t, runFor n s = .next t

/-- `40_dispatch.md` R63, `45_jumps.md` R84: a JMP to its own address never ends (opcode value D6, log 6). -/
def Obligations.AJumpToItselfNeverEnds : Prop :=
  ∀ (a : Byte) (ra : Reg) (s : State), Names a ra → s.run = .running → AtPc s [0x54#8, a] → s.reg ra = s.pc →
    (∀ n, runFor n s = .next s) ∧ ¬ ∃ t, EndsAt s t

/-! ## Memory, reset and loading -/

/-- `20_memory.md` R33: a write makes the cell hold the value and leaves every other cell, and everything but memory, as it was. -/
def Obligations.AWriteIsReadBackAndLeavesTheRest : Prop :=
  ∀ (s : State) (addr v : Byte), (s.store addr v).load addr = v ∧ KeepsMemoryBut addr s (s.store addr v) ∧
    s.store addr v = { s with mem := (s.store addr v).mem }

/-- `10_state.md` R30: two canonical memories that read alike at all 256 addresses are the same data (the list is the model's
form, log 14). -/
def Obligations.CanonicalMemoriesThatReadAlikeAreEqual : Prop :=
  ∀ m m' : Memory, m.wf = true → m'.wf = true → (∀ addr, Memory.read m addr = Memory.read m' addr) → m = m'

/-- `10_state.md` R29, `70_reset_and_hazards.md` R106 (the stack top is the spec's own decision D1, log 1; the empty record
D8, log 8). -/
def Obligations.ResetLeavesTheValuesOfTheSpec : Prop :=
  (∀ r : Reg, r ≠ 7 → State.reset.reg r = 0#8) ∧ State.reset.reg 7 = 0xF4#8 ∧ State.reset.pc = 0#8 ∧
  State.reset.fl = ⟨false, false, false⟩ ∧ (∀ addr, State.reset.load addr = 0#8) ∧
  State.reset.run = .running ∧ State.reset.fault = none ∧ State.reset.out = [] ∧ State.init [] = .loaded State.reset

/-- `70_reset_and_hazards.md` R107: byte `k` of an image of at most 256 bytes goes to `mem[k]` and cells the image does not
reach stay zero; everything but memory is as at reset. -/
def Obligations.InitPlacesTheImageFromAddressZero : Prop :=
  ∀ image : List Byte, image.length ≤ 256 →
    ∃ s, State.init image = .loaded s ∧ (∀ addr : Byte, s.load addr = image.getD addr.toNat 0#8) ∧
      s = { State.reset with mem := s.mem }

/-- `70_reset_and_hazards.md` R108 (the spec's own decision D10, log 10): a longer image is refused. -/
def Obligations.InitRefusesAnImageOver256Bytes : Prop :=
  ∀ image : List Byte, 256 < image.length → State.init image = .imageTooLong

/-! ## The invariant -/

/-- The invariant of the Machine (`10_state.md` R19, R24; `60_exceptions.md` R92; `70_reset_and_hazards.md` R111; the canonical
memory, log 14) holds at reset. -/
def Obligations.ResetMeetsTheInvariant : Prop := Inv State.reset

/-- The invariant holds of every loaded machine. -/
def Obligations.EveryLoadedMachineMeetsTheInvariant : Prop :=
  ∀ (image : List Byte) (s : State), State.init image = .loaded s → Inv s

/-- Every step from any state that meets the invariant keeps it: canonical memory (log 14), flags one of the four values of
R19, a fault record that is present exactly in ERROR and names the true cause, opcode byte and pc (R24, R88, R92; D8, log 8),
and HALTED only at a HLT (R64; D9, log 9). -/
def Obligations.EveryStepKeepsTheInvariant : Prop :=
  ∀ s t : State, Inv s → step s = .next t → Inv t

/-- `70_reset_and_hazards.md` R111: a run from a state that meets the invariant (every loaded machine does) ends in one of two
ways. In HALTED, with no record and `pc` at a HLT; or in ERROR, with `pc` at the faulting instruction, which is no HLT, and a
record of its opcode byte, of `pc`, and of a cause whose condition holds there. That `pc` stays at the HLT is the spec's own
decision D9 (log 9), and the state after a fault D8 (log 8). -/
def Obligations.ARunEndsAtAHltOrAtAFaultingInstruction : Prop :=
  ∀ s t : State, Inv s → EndsAt s t →
    (t.run = .halted ∧ t.fault = none ∧ t.load t.pc = 0x01#8) ∨
    (t.run = .error ∧ t.load t.pc ≠ 0x01#8 ∧
      ∃ f, t.fault = some f ∧ f.opcode = t.load t.pc ∧ f.pc = t.pc ∧ CauseHolds t f.cause)
end

