-- ==== Sys2Proof/Laws/Decode.lean ====
section
/-! SUPPORT. What the opcode match and the decoder can answer, said once. -/

namespace Sys2Proof

/-- The opcode match answers a row of the opcode map whose opcode is the triple's. -/
theorem matchOpcode_mem {t : Triple} {i : Instr} (h : matchOpcode t = some i) : (t.op, i) ∈ opcodeRows t.a t.b := by
  obtain ⟨⟨op, j⟩, hf, hj⟩ := Option.map_eq_some_iff.1 h
  have h1 := List.mem_of_find?_eq_some hf
  have h2 := List.find?_some hf
  simp only [decide_eq_true_eq] at h2 hj
  subst h2 hj
  exact h1

/-- It answers nothing exactly on the bytes that are none of the fifteen. -/
theorem matchOpcode_eq_none {t : Triple} : matchOpcode t = none ↔ t.op ∉ opcodes := by
  rw [matchOpcode, Option.map_eq_none_iff, List.find?_eq_none]
  simp only [opcodeRows, opcodes, List.mem_cons, List.not_mem_nil, or_false, forall_eq_or_imp, forall_eq, decide_eq_true_eq,
    not_or, eq_comm (a := t.op)]

/-- The opcode of every instruction is one of the fifteen. -/
theorem opcode_mem_opcodes (i : Instr) : i.opcode ∈ opcodes := by cases i <;> simp [Instr.opcode, opcodes]

/-- No two rows of the opcode map share an opcode byte (R6: "pairwise distinct byte values"). -/
theorem opcodes_nodup : opcodes.Nodup := by decide

theorem decode_eq_ok {t : Triple} {i : Instr} : decode t = .ok i ↔ matchOpcode t = some i ∧ i.WellFormed := by
  unfold decode
  cases h : matchOpcode t with
  | none => simp
  | some j =>
    by_cases hw : j.wellFormed = true
    · simp only [hw, if_true, Decoded.ok.injEq, Option.some.injEq]
      exact ⟨fun h => ⟨h, h ▸ hw⟩, fun h => h.1⟩
    · simp only [hw, if_false, reduceCtorEq, Option.some.injEq, false_iff]
      exact fun h => hw (h.1 ▸ h.2)

theorem decode_unrecognized {t : Triple} : decode t = .reject .unrecognizedOpcode ↔ matchOpcode t = none := by
  unfold decode
  cases h : matchOpcode t with
  | none => simp
  | some j => by_cases hw : j.wellFormed = true <;> simp [hw]

theorem decode_registerAbove7 {t : Triple} :
    decode t = .reject .registerAbove7 ↔ ∃ i, matchOpcode t = some i ∧ ¬ i.WellFormed := by
  unfold decode
  cases h : matchOpcode t with
  | none => simp
  | some j => by_cases hw : j.wellFormed = true <;> simp [hw]

end Sys2Proof
end

