-- ==== Sys2Proof/Laws/State.lean ====
section
/-! SUPPORT. One lemma per field per update of the state, so that no later proof unfolds a record update. -/

namespace Sys2Proof.Machine.State

variable (s : State)

/-! ## Registers -/

@[simp] theorem setReg_reg (r q : Reg) (v : Byte) : (s.setReg r v).reg q = if r = q then v else s.reg q := by
  simp [setReg, reg, Vector.getElem_set, Fin.ext_iff]

theorem setReg_reg_same (r : Reg) (v : Byte) : (s.setReg r v).reg r = v := by simp

theorem setReg_reg_of_ne {r q : Reg} (v : Byte) (h : q ≠ r) : (s.setReg r v).reg q = s.reg q := by
  simp [Ne.symm h]

@[simp] theorem decSp_reg (q : Reg) : s.decSp.reg q = if Config.spIndex = q then s.sp - 1 else s.reg q := by simp [decSp]
@[simp] theorem incSp_reg (q : Reg) : s.incSp.reg q = if Config.spIndex = q then s.sp + 1 else s.reg q := by simp [incSp]
@[simp] theorem decSp_sp : s.decSp.sp = s.sp - 1 := by simp [sp]
@[simp] theorem incSp_sp : s.incSp.sp = s.sp + 1 := by simp [sp]

/-! ## `setReg` -/

@[simp] theorem setReg_pc (r : Reg) (v : Byte) : (s.setReg r v).pc = s.pc := rfl
@[simp] theorem setReg_fl (r : Reg) (v : Byte) : (s.setReg r v).fl = s.fl := rfl
@[simp] theorem setReg_mem (r : Reg) (v : Byte) : (s.setReg r v).mem = s.mem := rfl
@[simp] theorem setReg_run (r : Reg) (v : Byte) : (s.setReg r v).run = s.run := rfl
@[simp] theorem setReg_fault (r : Reg) (v : Byte) : (s.setReg r v).fault = s.fault := rfl
@[simp] theorem setReg_out (r : Reg) (v : Byte) : (s.setReg r v).out = s.out := rfl
@[simp] theorem setReg_load (r : Reg) (v : Byte) (addr : Byte) : (s.setReg r v).load addr = s.load addr := rfl

/-! ## `setPc` -/

@[simp] theorem setPc_reg (v : Byte) (q : Reg) : (s.setPc v).reg q = s.reg q := rfl
@[simp] theorem setPc_sp (v : Byte) : (s.setPc v).sp = s.sp := rfl
@[simp] theorem setPc_pc (v : Byte) : (s.setPc v).pc = v := rfl
@[simp] theorem setPc_fl (v : Byte) : (s.setPc v).fl = s.fl := rfl
@[simp] theorem setPc_mem (v : Byte) : (s.setPc v).mem = s.mem := rfl
@[simp] theorem setPc_run (v : Byte) : (s.setPc v).run = s.run := rfl
@[simp] theorem setPc_fault (v : Byte) : (s.setPc v).fault = s.fault := rfl
@[simp] theorem setPc_out (v : Byte) : (s.setPc v).out = s.out := rfl
@[simp] theorem setPc_load (v : Byte) (addr : Byte) : (s.setPc v).load addr = s.load addr := rfl

/-! ## `advance` -/

@[simp] theorem advance_reg (n : Byte) (q : Reg) : (s.advance n).reg q = s.reg q := rfl
@[simp] theorem advance_sp (n : Byte) : (s.advance n).sp = s.sp := rfl
@[simp] theorem advance_pc (n : Byte) : (s.advance n).pc = s.pc + n := rfl
@[simp] theorem advance_fl (n : Byte) : (s.advance n).fl = s.fl := rfl
@[simp] theorem advance_mem (n : Byte) : (s.advance n).mem = s.mem := rfl
@[simp] theorem advance_run (n : Byte) : (s.advance n).run = s.run := rfl
@[simp] theorem advance_fault (n : Byte) : (s.advance n).fault = s.fault := rfl
@[simp] theorem advance_out (n : Byte) : (s.advance n).out = s.out := rfl
@[simp] theorem advance_load (n : Byte) (addr : Byte) : (s.advance n).load addr = s.load addr := rfl

/-! ## `store` -/

@[simp] theorem store_reg (k v : Byte) (q : Reg) : (s.store k v).reg q = s.reg q := rfl
@[simp] theorem store_sp (k v : Byte) : (s.store k v).sp = s.sp := rfl
@[simp] theorem store_pc (k v : Byte) : (s.store k v).pc = s.pc := rfl
@[simp] theorem store_fl (k v : Byte) : (s.store k v).fl = s.fl := rfl
@[simp] theorem store_mem (k v : Byte) : (s.store k v).mem = Memory.write s.mem k v := rfl
@[simp] theorem store_run (k v : Byte) : (s.store k v).run = s.run := rfl
@[simp] theorem store_fault (k v : Byte) : (s.store k v).fault = s.fault := rfl
@[simp] theorem store_out (k v : Byte) : (s.store k v).out = s.out := rfl

/-! ## `storeAtSp` -/

@[simp] theorem storeAtSp_reg (v : Byte) (q : Reg) : (s.storeAtSp v).reg q = s.reg q := rfl
@[simp] theorem storeAtSp_sp (v : Byte) : (s.storeAtSp v).sp = s.sp := rfl
@[simp] theorem storeAtSp_pc (v : Byte) : (s.storeAtSp v).pc = s.pc := rfl
@[simp] theorem storeAtSp_fl (v : Byte) : (s.storeAtSp v).fl = s.fl := rfl
@[simp] theorem storeAtSp_mem (v : Byte) : (s.storeAtSp v).mem = Memory.write s.mem s.sp v := rfl
@[simp] theorem storeAtSp_run (v : Byte) : (s.storeAtSp v).run = s.run := rfl
@[simp] theorem storeAtSp_fault (v : Byte) : (s.storeAtSp v).fault = s.fault := rfl
@[simp] theorem storeAtSp_out (v : Byte) : (s.storeAtSp v).out = s.out := rfl

/-! ## `output` -/

@[simp] theorem output_reg (v : Byte) (q : Reg) : (s.output v).reg q = s.reg q := rfl
@[simp] theorem output_sp (v : Byte) : (s.output v).sp = s.sp := rfl
@[simp] theorem output_pc (v : Byte) : (s.output v).pc = s.pc := rfl
@[simp] theorem output_fl (v : Byte) : (s.output v).fl = s.fl := rfl
@[simp] theorem output_mem (v : Byte) : (s.output v).mem = s.mem := rfl
@[simp] theorem output_run (v : Byte) : (s.output v).run = s.run := rfl
@[simp] theorem output_fault (v : Byte) : (s.output v).fault = s.fault := rfl
@[simp] theorem output_out (v : Byte) : (s.output v).out = s.out ++ [v] := rfl
@[simp] theorem output_load (v : Byte) (addr : Byte) : (s.output v).load addr = s.load addr := rfl

/-! ## `halt` -/

@[simp] theorem halt_reg (q : Reg) : (s.halt).reg q = s.reg q := rfl
@[simp] theorem halt_sp : (s.halt).sp = s.sp := rfl
@[simp] theorem halt_pc : (s.halt).pc = s.pc := rfl
@[simp] theorem halt_fl : (s.halt).fl = s.fl := rfl
@[simp] theorem halt_mem : (s.halt).mem = s.mem := rfl
@[simp] theorem halt_run : (s.halt).run = .halted := rfl
@[simp] theorem halt_fault : (s.halt).fault = s.fault := rfl
@[simp] theorem halt_out : (s.halt).out = s.out := rfl
@[simp] theorem halt_load (addr : Byte) : (s.halt).load addr = s.load addr := rfl

/-! ## `raise` -/

@[simp] theorem raise_reg (c : Cause) (op : Byte) (q : Reg) : (s.raise c op).reg q = s.reg q := rfl
@[simp] theorem raise_sp (c : Cause) (op : Byte) : (s.raise c op).sp = s.sp := rfl
@[simp] theorem raise_pc (c : Cause) (op : Byte) : (s.raise c op).pc = s.pc := rfl
@[simp] theorem raise_fl (c : Cause) (op : Byte) : (s.raise c op).fl = s.fl := rfl
@[simp] theorem raise_mem (c : Cause) (op : Byte) : (s.raise c op).mem = s.mem := rfl
@[simp] theorem raise_run (c : Cause) (op : Byte) : (s.raise c op).run = .error := rfl
@[simp] theorem raise_fault (c : Cause) (op : Byte) : (s.raise c op).fault = some ⟨c, op, s.pc⟩ := rfl
@[simp] theorem raise_out (c : Cause) (op : Byte) : (s.raise c op).out = s.out := rfl
@[simp] theorem raise_load (c : Cause) (op : Byte) (addr : Byte) : (s.raise c op).load addr = s.load addr := rfl

/-! ## `setFlags` -/

@[simp] theorem setFlags_reg (f : Flags) (q : Reg) : (s.setFlags f).reg q = s.reg q := rfl
@[simp] theorem setFlags_sp (f : Flags) : (s.setFlags f).sp = s.sp := rfl
@[simp] theorem setFlags_pc (f : Flags) : (s.setFlags f).pc = s.pc := rfl
@[simp] theorem setFlags_fl (f : Flags) : (s.setFlags f).fl = f := rfl
@[simp] theorem setFlags_mem (f : Flags) : (s.setFlags f).mem = s.mem := rfl
@[simp] theorem setFlags_run (f : Flags) : (s.setFlags f).run = s.run := rfl
@[simp] theorem setFlags_fault (f : Flags) : (s.setFlags f).fault = s.fault := rfl
@[simp] theorem setFlags_out (f : Flags) : (s.setFlags f).out = s.out := rfl
@[simp] theorem setFlags_load (f : Flags) (addr : Byte) : (s.setFlags f).load addr = s.load addr := rfl

/-! ## `decSp` -/

@[simp] theorem decSp_pc : (s.decSp).pc = s.pc := rfl
@[simp] theorem decSp_fl : (s.decSp).fl = s.fl := rfl
@[simp] theorem decSp_mem : (s.decSp).mem = s.mem := rfl
@[simp] theorem decSp_run : (s.decSp).run = s.run := rfl
@[simp] theorem decSp_fault : (s.decSp).fault = s.fault := rfl
@[simp] theorem decSp_out : (s.decSp).out = s.out := rfl
@[simp] theorem decSp_load (addr : Byte) : (s.decSp).load addr = s.load addr := rfl

/-! ## `incSp` -/

@[simp] theorem incSp_pc : (s.incSp).pc = s.pc := rfl
@[simp] theorem incSp_fl : (s.incSp).fl = s.fl := rfl
@[simp] theorem incSp_mem : (s.incSp).mem = s.mem := rfl
@[simp] theorem incSp_run : (s.incSp).run = s.run := rfl
@[simp] theorem incSp_fault : (s.incSp).fault = s.fault := rfl
@[simp] theorem incSp_out : (s.incSp).out = s.out := rfl
@[simp] theorem incSp_load (addr : Byte) : (s.incSp).load addr = s.load addr := rfl

/-- Two states with the same registers, one by one, have the same register file. -/
theorem x_ext {s t : State} (h : ∀ r, t.reg r = s.reg r) : t.x = s.x :=
  Vector.ext fun i hi => h ⟨i, hi⟩

end Sys2Proof.Machine.State
end

