-- ==== Sys2Proof/Laws/Meanings.lean ====
section
/-! SUPPORT. One lemma per shared operation that says once everything it can do, and one per meaning that says what it answers
on legal operands: later proofs cite these instead of unfolding. -/

namespace Sys2Proof.Machine

/-! ## Operands -/

theorem regOperand_of_eq {byte : Byte} {r : Reg} (h : byte.toNat = r.val) : regOperand byte = some r := by
  simp [regOperand, h]

theorem regOperand_eq_some {byte : Byte} {r : Reg} : regOperand byte = some r ↔ byte.toNat = r.val := by
  constructor
  · intro h
    unfold regOperand at h
    split at h
    · injection h with h; rw [← h]
    · cases h
  · exact regOperand_of_eq

theorem regOperand_eq_none {byte : Byte} : regOperand byte = none ↔ 7 < byte.toNat := by
  unfold regOperand
  split
  · next h => simp only [reduceCtorEq, false_iff]; have : byte.toNat < 8 := h; omega
  · next h => simp only [true_iff]; have : ¬ byte.toNat < 8 := h; omega

theorem withReg_some {op byte : Byte} {s : State} {body : Reg → Result} {r : Reg} (h : regOperand byte = some r) :
    withReg op byte s body = body r := by simp [withReg, h]

theorem withReg_none {op byte : Byte} {s : State} {body : Reg → Result} (h : regOperand byte = none) :
    withReg op byte s body = .next (s.raise .invalidRegisterIndex op) := by simp [withReg, h]

/-- Everything a register operand can do. -/
theorem withReg_cases {op byte : Byte} {s : State} {body : Reg → Result} :
    (∃ r, regOperand byte = some r ∧ withReg op byte s body = body r) ∨
    (regOperand byte = none ∧ withReg op byte s body = .next (s.raise .invalidRegisterIndex op)) := by
  cases h : regOperand byte with
  | some r => exact .inl ⟨r, rfl, withReg_some h⟩
  | none => exact .inr ⟨rfl, withReg_none h⟩

theorem withTwoRegs_some {op a b : Byte} {s : State} {body : Reg → Reg → Result} {ra rb : Reg}
    (ha : regOperand a = some ra) (hb : regOperand b = some rb) : withTwoRegs op a b s body = body ra rb := by
  rw [withTwoRegs, withReg_some ha, withReg_some hb]

/-- Everything a pair of register operands can do. -/
theorem withTwoRegs_cases {op a b : Byte} {s : State} {body : Reg → Reg → Result} :
    (∃ ra rb, regOperand a = some ra ∧ regOperand b = some rb ∧ withTwoRegs op a b s body = body ra rb) ∨
    ((regOperand a = none ∨ regOperand b = none) ∧
      withTwoRegs op a b s body = .next (s.raise .invalidRegisterIndex op)) := by
  cases ha : regOperand a with
  | none => exact .inr ⟨.inl rfl, withReg_none ha⟩
  | some ra =>
    cases hb : regOperand b with
    | none => exact .inr ⟨.inr rfl, by rw [withTwoRegs, withReg_some ha, withReg_none hb]⟩
    | some rb => exact .inl ⟨ra, rb, rfl, rfl, withTwoRegs_some ha hb⟩

/-! ## The ALU -/

theorem aluSub_of_le {va vb : Byte} (h : vb.toNat ≤ va.toNat) : aluSub va vb = .toA (trunc8 (va.toNat - vb.toNat)) := by
  simp [aluSub, h]

theorem aluSub_of_lt {va vb : Byte} (h : va.toNat < vb.toNat) : aluSub va vb = .toB (trunc8 (vb.toNat - va.toNat)) := by
  simp [aluSub, Nat.not_le.2 h]

theorem aluDiv_of_le {va vb : Byte} (h : vb.toNat ≤ va.toNat) (h0 : vb.toNat ≠ 0) :
    aluDiv va vb = .toA (trunc8 (va.toNat / vb.toNat)) := by
  simp only [aluDiv, h, if_true, if_neg h0]

theorem aluDiv_of_lt {va vb : Byte} (h : va.toNat < vb.toNat) (h0 : va.toNat ≠ 0) :
    aluDiv va vb = .toB (trunc8 (vb.toNat / va.toNat)) := by
  simp only [aluDiv, Nat.not_le.2 h, if_false, if_neg h0]

/-- The divisor is the smaller value: DIV has no result exactly when it is zero. -/
theorem aluDiv_zero_iff {va vb : Byte} : aluDiv va vb = .divideByZero ↔ min va.toNat vb.toNat = 0 := by
  unfold aluDiv
  split <;> split <;> simp only [reduceCtorEq, true_iff, false_iff] <;> omega

@[simp] theorem trunc8_toNat (v : Nat) : (trunc8 v).toNat = v % 256 := by simp [trunc8]

/-- Everything an ALU instruction can do. -/
theorem execAlu_cases {op : AluOp} {opcode a b : Byte} {s : State} :
    (∃ ra rb, regOperand a = some ra ∧ regOperand b = some rb ∧
      execAlu op opcode a b s = .next (applyAlu opcode ra rb s (alu op (s.reg ra) (s.reg rb)))) ∨
    ((regOperand a = none ∨ regOperand b = none) ∧
      execAlu op opcode a b s = .next (s.raise .invalidRegisterIndex opcode)) := withTwoRegs_cases

theorem execAlu_legal {op : AluOp} {opcode a b : Byte} {s : State} {ra rb : Reg}
    (ha : regOperand a = some ra) (hb : regOperand b = some rb) :
    execAlu op opcode a b s = .next (applyAlu opcode ra rb s (alu op (s.reg ra) (s.reg rb))) := withTwoRegs_some ha hb

/-- An ALU result never touches memory or the output, whatever it is. -/
theorem applyAlu_frame (opcode : Byte) (ra rb : Reg) (s : State) (res : AluResult) :
    (applyAlu opcode ra rb s res).mem = s.mem ∧ (applyAlu opcode ra rb s res).out = s.out := by
  cases res <;> exact ⟨rfl, rfl⟩

/-! ## Conditional transfer -/

/-- Everything a conditional transfer can do. -/
theorem jumpIf_cases (s : State) (cond : Bool) (ra : Reg) :
    (cond = true ∧ s.jumpIf cond ra = s.setPc (s.reg ra)) ∨ (cond = false ∧ s.jumpIf cond ra = s.advance 2) := by
  cases cond
  · exact .inr ⟨rfl, rfl⟩
  · exact .inl ⟨rfl, rfl⟩

/-! ## The meanings on legal operands -/

section
variable {a b : Byte} {ra rb : Reg} (s : State) (ha : regOperand a = some ra)
include ha

theorem execLdi_legal (imm : Byte) : execLdi a imm s = .next ((s.setReg ra imm).advance 3) := withReg_some ha

theorem execPrn_legal : execPrn a s = .next ((s.output (s.reg ra)).advance 2) := withReg_some ha

theorem execPush_legal : execPush a s = .next ((s.decSp.storeAtSp (s.decSp.reg ra)).advance 2) := withReg_some ha

theorem execPop_legal : execPop a s = .next ((s.setReg ra s.loadAtSp).incSp.advance 2) := withReg_some ha

theorem execCall_legal :
    execCall a s = .next ((s.decSp.storeAtSp (s.pc + 2)).setPc (s.decSp.reg ra)) := withReg_some ha

theorem execJmp_legal : execJmp a s = .next (s.setPc (s.reg ra)) := withReg_some ha

theorem execJeq_legal : execJeq a s = .next (s.jumpIf s.fl.equal ra) := withReg_some ha

theorem execJne_legal : execJne a s = .next (s.jumpIf (!s.fl.equal) ra) := withReg_some ha

end

theorem execRet_eq (s : State) : execRet s = .next (s.incSp.setPc (s.load s.sp)) := rfl

theorem execHlt_eq (s : State) : execHlt s = .next s.halt := rfl

end Sys2Proof.Machine
end

