-- ==== Sys2Proof/Laws/Memory.lean ====
section
/-! SUPPORT. The memory: what `lookup` gives after `insert` and `erase`, and that every memory operation keeps the canonical
form (`Memory.wf`). -/

namespace Sys2Proof.Machine

namespace Memory

@[simp] theorem lookup_nil (k : Nat) : lookup [] k = unlisted := rfl

@[simp] theorem lookup_cons (j : Nat) (w : Byte) (m : Memory) (k : Nat) :
    lookup ((j, w) :: m) k = if j = k then w else lookup m k := rfl

/-- What `insert` does, in full. It holds of every list, canonical or not. -/
theorem lookup_insert (m : Memory) (k : Nat) (v : Byte) (q : Nat) :
    lookup (insert m k v) q = if k = q then v else lookup m q := by
  induction m with
  | nil => rfl
  | cons c m ih =>
    obtain ⟨j, w⟩ := c
    unfold insert
    split
    · rfl
    · split
      · next h => subst h; by_cases hq : k = q <;> simp [hq]
      · by_cases hj : j = q
        · subst hj; simp_all
        · simp [hj, ih]

/-- What `erase` does, in full. -/
theorem lookup_erase (m : Memory) (k q : Nat) :
    lookup (erase m k) q = if k = q then unlisted else lookup m q := by
  induction m with
  | nil => simp [erase]
  | cons c m ih =>
    obtain ⟨j, w⟩ := c
    by_cases hj : j = k
    · subst hj; by_cases hq : j = q <;> simp_all [erase]
    · by_cases hq : j = q
      · subst hq; simp [erase, hj, Ne.symm hj]
      · simp [erase, hj, hq, ih]

/-! ## The canonical form -/

@[simp] theorem wfFrom_nil (lo : Nat) : wfFrom lo [] = true := rfl

theorem wfFrom_cons (lo k : Nat) (v : Byte) (m : Memory) :
    wfFrom lo ((k, v) :: m) = true ↔ lo ≤ k ∧ k < Config.memSize ∧ v ≠ unlisted ∧ wfFrom (k + 1) m = true := by
  simp [wfFrom, and_assoc]

theorem wfFrom_mono {lo lo' : Nat} {m : Memory} (h : lo' ≤ lo) (hm : wfFrom lo m = true) : wfFrom lo' m = true := by
  cases m with
  | nil => rfl
  | cons c m =>
    rw [wfFrom_cons] at hm ⊢
    exact ⟨h.trans hm.1, hm.2⟩

theorem insert_wfFrom {m : Memory} {lo k : Nat} {v : Byte} (hm : wfFrom lo m = true) (hlo : lo ≤ k)
    (hk : k < Config.memSize) (hv : v ≠ unlisted) : wfFrom lo (insert m k v) = true := by
  induction m generalizing lo with
  | nil => simpa [insert, wfFrom_cons] using ⟨hlo, hk, hv⟩
  | cons c m ih =>
    obtain ⟨j, w⟩ := c
    have ⟨hj, hjs, hw, ht⟩ := (wfFrom_cons ..).1 hm
    unfold insert
    split
    · next h => exact (wfFrom_cons ..).2 ⟨hlo, hk, hv, (wfFrom_cons ..).2 ⟨h, hjs, hw, ht⟩⟩
    · split
      · next h => subst h; exact (wfFrom_cons ..).2 ⟨hj, hjs, hv, ht⟩
      · exact (wfFrom_cons ..).2 ⟨hj, hjs, hw, ih ht (by omega)⟩

theorem erase_wfFrom {m : Memory} {lo : Nat} (k : Nat) (hm : wfFrom lo m = true) : wfFrom lo (erase m k) = true := by
  induction m generalizing lo with
  | nil => rfl
  | cons c m ih =>
    obtain ⟨j, w⟩ := c
    have ⟨hj, hjs, hw, ht⟩ := (wfFrom_cons ..).1 hm
    unfold erase
    split
    · exact ih (wfFrom_mono (by omega) ht)
    · exact (wfFrom_cons ..).2 ⟨hj, hjs, hw, ih ht⟩

/-- A write keeps the canonical form. -/
theorem write_wf {m : Memory} (addr v : Byte) (hm : m.wf = true) : (write m addr v).wf = true := by
  unfold write
  split
  · exact erase_wfFrom _ hm
  · next h => exact insert_wfFrom hm (Nat.zero_le _) addr.isLt h

end Memory

namespace State

theorem store_wf {s : State} (addr v : Byte) (h : s.mem.wf = true) : (s.store addr v).mem.wf = true :=
  Memory.write_wf addr v h

theorem storeAtSp_wf {s : State} (v : Byte) (h : s.mem.wf = true) : (s.storeAtSp v).mem.wf = true :=
  Memory.write_wf s.sp v h

theorem storeBytes_wf {s : State} (addr : Byte) (bytes : List Byte) (h : s.mem.wf = true) :
    (s.storeBytes addr bytes).mem.wf = true := by
  induction bytes generalizing s addr with
  | nil => exact h
  | cons v vs ih => exact ih _ (store_wf addr v h)

/-- `storeBytes` changes nothing but memory. -/
theorem storeBytes_eq (s : State) (addr : Byte) (bytes : List Byte) :
    s.storeBytes addr bytes = { s with mem := (s.storeBytes addr bytes).mem } := by
  induction bytes generalizing s addr with
  | nil => rfl
  | cons v vs ih =>
    calc (s.store addr v).storeBytes (addr + 1) vs
        = { s.store addr v with mem := ((s.store addr v).storeBytes (addr + 1) vs).mem } := ih ..
      _ = { s with mem := ((s.store addr v).storeBytes (addr + 1) vs).mem } := rfl

/-- The reset memory is in canonical form. -/
theorem reset_mem_wf : State.reset.mem.wf = true := rfl

end State

end Sys2Proof.Machine
end

