-- ==== Sys2Proof/Laws/PerInstr.lean ====
section
/-! SUPPORT. The family `EncodedForm`: what holds of the encoding of every instruction, one lemma per constructor. -/

namespace Sys2Proof.Laws.EncodedForm

/-- The encoding starts with the opcode byte and has the length of the instruction's format (R47, R48). -/
def Statement (i : Instr) : Prop := (encode i).head? = some i.opcode ∧ (encode i).length = i.width

theorem hlt : Statement .hlt := ⟨rfl, rfl⟩
theorem ldi (a imm : Byte) : Statement (.ldi a imm) := ⟨rfl, rfl⟩
theorem prn (a : Byte) : Statement (.prn a) := ⟨rfl, rfl⟩
theorem push (a : Byte) : Statement (.push a) := ⟨rfl, rfl⟩
theorem pop (a : Byte) : Statement (.pop a) := ⟨rfl, rfl⟩
theorem call (a : Byte) : Statement (.call a) := ⟨rfl, rfl⟩
theorem ret : Statement .ret := ⟨rfl, rfl⟩
theorem add (a b : Byte) : Statement (.add a b) := ⟨rfl, rfl⟩
theorem sub (a b : Byte) : Statement (.sub a b) := ⟨rfl, rfl⟩
theorem mul (a b : Byte) : Statement (.mul a b) := ⟨rfl, rfl⟩
theorem div (a b : Byte) : Statement (.div a b) := ⟨rfl, rfl⟩
theorem cmp (a b : Byte) : Statement (.cmp a b) := ⟨rfl, rfl⟩
theorem jmp (a : Byte) : Statement (.jmp a) := ⟨rfl, rfl⟩
theorem jeq (a : Byte) : Statement (.jeq a) := ⟨rfl, rfl⟩
theorem jne (a : Byte) : Statement (.jne a) := ⟨rfl, rfl⟩

end Sys2Proof.Laws.EncodedForm
end

