-- ==== Sys2Proof/Laws/Step.lean ====
section
/-! SUPPORT. What a step and a bounded run can do, said once. -/

namespace Sys2Proof.Machine

theorem step_running {s : State} (h : s.run = .running) : step s = s.cycle := by simp [step, State.requireRunning, h]

theorem step_halted {s : State} (h : s.run = .halted) : step s = .fault .noStepHalted := by
  simp [step, State.requireRunning, h]

theorem step_error {s : State} (h : s.run = .error) : step s = .fault .noStepError := by
  simp [step, State.requireRunning, h]

/-- Only a RUNNING state answers a next state. -/
theorem running_of_step {s t : State} (h : step s = .next t) : s.run = .running := by
  cases hr : s.run with
  | running => rfl
  | halted => rw [step_halted hr] at h; cases h
  | error => rw [step_error hr] at h; cases h

theorem cycle_ok {s : State} {i : Instr} (h : decode s.fetch = .ok i) : s.cycle = exec i s := by simp [State.cycle, h]

theorem cycle_reject {s : State} {why : DecodeError} (h : decode s.fetch = .reject why) :
    s.cycle = .next (s.raise (decodeCause why) s.fetch.op) := by simp [State.cycle, h]

/-- Everything a step that answers a next state can be: the handler of the decoded instruction, or the fault of a refused
triple. -/
theorem step_cases {s t : State} (h : step s = .next t) :
    s.run = .running ∧
      ((∃ i, decode s.fetch = .ok i ∧ exec i s = .next t) ∨
       (∃ why, decode s.fetch = .reject why ∧ t = s.raise (decodeCause why) s.fetch.op)) := by
  have hr := running_of_step h
  refine ⟨hr, ?_⟩
  rw [step_running hr] at h
  cases hd : decode s.fetch with
  | ok i => exact .inl ⟨i, rfl, cycle_ok hd ▸ h⟩
  | reject why =>
    rw [cycle_reject hd] at h
    injection h with h
    exact .inr ⟨why, rfl, h.symm⟩

/-! ## Bounded runs -/

theorem runFor_terminal (n : Nat) {s : State} (h : s.run ≠ .running) : runFor n s = .next s := by
  cases n with
  | zero => rfl
  | succ n => cases hr : s.run <;> simp_all [runFor]

theorem runFor_succ {n : Nat} {s t : State} (h : step s = .next t) : runFor (n + 1) s = runFor n t := by
  simp [runFor, running_of_step h, h]

/-- A run that has reached a terminal state stays there under any larger budget. -/
theorem runFor_add {n : Nat} {s t : State} (h : runFor n s = .next t) (ht : t.run ≠ .running) (m : Nat) :
    runFor (n + m) s = .next t := by
  induction n generalizing s with
  | zero => cases h; exact runFor_terminal _ ht
  | succ n ih =>
    rw [Nat.succ_add]
    by_cases hr : s.run = .running
    · simp only [runFor, hr] at h ⊢
      cases hs : step s with
      | next u => rw [hs] at h; exact ih h
      | fault r => rw [hs] at h; cases h
      | refused r => rw [hs] at h; cases h
    · rw [runFor_terminal _ hr] at h ⊢; exact h

/-- A run has at most one end. It holds of every step function, so it is a lemma and no statement for the provers. -/
theorem endsAt_unique {s t u : State} : EndsAt s t → EndsAt s u → t = u := by
  rintro ⟨ht, n, hn⟩ ⟨hu, m, hm⟩
  have h1 := runFor_add hn ht m
  rw [Nat.add_comm, runFor_add hm hu n] at h1
  injection h1 with h1
  exact h1.symm

end Sys2Proof.Machine
end

