-- ==== Sys2Proof/Tests/Slice0.lean ====
section
/-! SUPPORT. Tests with expected results from the spec (`95_test_vectors.md` V<n>, or a rule), the smoke tests of `WellFormed`,
a decoded word for every constructor, and a witness for the hypotheses of every statement. -/

namespace Sys2Proof.Tests

open Sys2Proof Sys2Proof.Machine Sys2Proof.Claims

/-! ## WellFormed refuses an ill-formed term, for each check -/

theorem test_wellFormed_refuses_field_a_of_r : (Instr.prn 8).wellFormed = false := by decide
theorem test_wellFormed_refuses_field_a_of_ri : (Instr.ldi 8 1).wellFormed = false := by decide
theorem test_wellFormed_refuses_field_a_of_rr : (Instr.add 8 0).wellFormed = false := by decide
theorem test_wellFormed_refuses_field_b_of_rr : (Instr.add 0 9).wellFormed = false := by decide
theorem test_wellFormed_accepts_boundary : (Instr.add 7 7).wellFormed = true ∧ (Instr.ldi 0 9).wellFormed = true := by decide

/-! ## Decoding: every constructor from its word, written out bit by bit from `30_encoding.md` R49 -/

theorem test_decode_hlt : decode ⟨0b00000001#8, 0xFF#8, 0xFF#8⟩ = .ok .hlt := by decide
theorem test_decode_ldi : decode ⟨0b10000010#8, 0b00000000#8, 0b00001000#8⟩ = .ok (.ldi 0 8) := by decide
theorem test_decode_prn : decode ⟨0b01000111#8, 0b00000010#8, 0xFF#8⟩ = .ok (.prn 2) := by decide
theorem test_decode_push : decode ⟨0b01000101#8, 0b00000001#8, 0xFF#8⟩ = .ok (.push 1) := by decide
theorem test_decode_pop : decode ⟨0b01000110#8, 0b00000111#8, 0xFF#8⟩ = .ok (.pop 7) := by decide
theorem test_decode_call : decode ⟨0b01010000#8, 0b00000011#8, 0xFF#8⟩ = .ok (.call 3) := by decide
theorem test_decode_ret : decode ⟨0b00010001#8, 0xFF#8, 0xFF#8⟩ = .ok .ret := by decide
theorem test_decode_add : decode ⟨0b10100000#8, 0b00000110#8, 0b00000001#8⟩ = .ok (.add 6 1) := by decide
theorem test_decode_sub : decode ⟨0b10100001#8, 0b00000110#8, 0b00000001#8⟩ = .ok (.sub 6 1) := by decide
theorem test_decode_mul : decode ⟨0b10100010#8, 0b00000110#8, 0b00000001#8⟩ = .ok (.mul 6 1) := by decide
theorem test_decode_div : decode ⟨0b10100011#8, 0b00000110#8, 0b00000001#8⟩ = .ok (.div 6 1) := by decide
theorem test_decode_cmp : decode ⟨0b10100111#8, 0b00000110#8, 0b00000001#8⟩ = .ok (.cmp 6 1) := by decide
theorem test_decode_jmp : decode ⟨0b01010100#8, 0b00000101#8, 0xFF#8⟩ = .ok (.jmp 5) := by decide
theorem test_decode_jeq : decode ⟨0b01010101#8, 0b00000101#8, 0xFF#8⟩ = .ok (.jeq 5) := by decide
theorem test_decode_jne : decode ⟨0b01010110#8, 0b00000101#8, 0xFF#8⟩ = .ok (.jne 5) := by decide

/-- V4: the byte 0x00 is no instruction (R56). -/
theorem test_decode_zero : decode ⟨0x00#8, 0x00#8, 0x00#8⟩ = .reject .unrecognizedOpcode := by decide
/-- V7: the opcode is judged before the register bytes (R95). -/
theorem test_decode_priority : decode ⟨0xFF#8, 0x09#8, 0x09#8⟩ = .reject .unrecognizedOpcode := by decide
/-- V109, V15: field b is a register in ADD and an immediate in LDI. -/
theorem test_decode_field_b :
    decode ⟨0xA0#8, 0x00#8, 0x09#8⟩ = .reject .registerAbove7 ∧ decode ⟨0x82#8, 0x00#8, 0x09#8⟩ = .ok (.ldi 0 9) := by decide

/-- The table word of LDI R1,2 by the table's numbering: the first byte is the lowest. -/
theorem test_decodeTableWord : decodeTableWord 24 0x020182 = some (.ldi 1 2) ∧ decodeTableWord 8 0xFFFF01 = some .hlt := by decide

/-! ## One step on small states -/

/-- The reset state with the bytes at address 0. -/
def at0 (bytes : List Byte) : State := State.reset.storeBytes 0 bytes

/-- The state with `x[0] = va` and `x[1] = vb`. -/
def with01 (va vb : Byte) (s : State) : State := (s.setReg 0 va).setReg 1 vb

/-- The state a step answers. -/
def after (s : State) : Option State :=
  match step s with
  | .next t => some t
  | .fault _ => none
  | .refused _ => none

/-- V1, V2. -/
theorem test_hlt : (after (at0 [0x01, 0xFF, 0xFF])).map (fun t => (t.run, t.pc)) = some (.halted, 0) := by decide
/-- V10, V16 (the fetch and the advance wrap). -/
theorem test_ldi : (after (at0 [0x82, 0x00, 0x08])).map (fun t => (t.reg 0, t.pc)) = some (0x08, 0x03) := by decide
theorem test_ldi_wraps :
    (after ((State.reset.storeBytes 0xFE [0x82, 0x01, 0x5A]).setPc 0xFE)).map (fun t => (t.reg 1, t.pc)) = some (0x5A, 0x01) := by
  decide
/-- V18, V19. -/
theorem test_prn : (after ((at0 [0x47, 0x02]).setReg 2 0xC8)).map (fun t => (t.out, t.pc)) = some ([200], 2) := by decide
theorem test_prn_sp : (after (at0 [0x47, 0x07])).map (·.out) = some [244] := by decide
/-- V30, V32. -/
theorem test_push :
    (after ((at0 [0x45, 0x00]).setReg 0 0x2A)).map (fun t => (t.sp, t.load 0xF3, t.load 0xF4, t.pc)) = some (0xF3, 0x2A, 0, 2) := by
  decide
theorem test_push_sp : (after (at0 [0x45, 0x07])).map (fun t => (t.sp, t.load 0xF3)) = some (0xF3, 0xF3) := by decide
/-- V36, V37. -/
theorem test_pop_wraps :
    (after (((at0 [0x46, 0x02]).setReg 7 0xFF).store 0xFF 0x77)).map (fun t => (t.reg 2, t.sp, t.pc)) = some (0x77, 0x00, 2) := by
  decide
theorem test_pop_sp : (after (((at0 [0x46, 0x07]).setReg 7 0xF3).store 0xF3 0x20)).map (·.sp) = some 0x21 := by decide
/-- V52 (spans 0xFF and 0x00), V53. -/
theorem test_call_wraps :
    (after (((State.reset.storeBytes 0xFF [0x50, 0x02]).setPc 0xFF).setReg 2 0x30)).map (fun t => (t.load 0xF3, t.sp, t.pc))
      = some (0x01, 0xF3, 0x30) := by decide
theorem test_call_sp : (after (at0 [0x50, 0x07])).map (fun t => (t.load 0xF3, t.pc)) = some (0x02, 0xF3) := by decide
/-- V57. -/
theorem test_ret : (after (((at0 [0x11]).setReg 7 0xFF).store 0xFF 0x33)).map (fun t => (t.pc, t.sp)) = some (0x33, 0x00) := by
  decide
/-- V62, V102. -/
theorem test_add : (after (with01 200 100 (at0 [0xA0, 0x00, 0x01]))).map (fun t => (t.reg 0, t.reg 1, t.pc)) = some (44, 100, 3) := by
  decide
theorem test_add_same : (after (with01 0x80 1 (at0 [0xA0, 0x00, 0x00]))).map (·.reg 0) = some 0 := by decide
/-- V75, V76. -/
theorem test_sub_to_a : (after (with01 5 3 (at0 [0xA1, 0x00, 0x01]))).map (fun t => (t.reg 0, t.reg 1)) = some (2, 3) := by decide
theorem test_sub_to_b : (after (with01 3 5 (at0 [0xA1, 0x00, 0x01]))).map (fun t => (t.reg 0, t.reg 1)) = some (3, 2) := by decide
/-- V70, V104. -/
theorem test_mul : (after (with01 255 255 (at0 [0xA2, 0x00, 0x01]))).map (fun t => (t.reg 0, t.reg 1)) = some (1, 255) := by decide
theorem test_mul_same : (after (with01 17 0 (at0 [0xA2, 0x00, 0x00]))).map (·.reg 0) = some 33 := by decide
/-- V89, V94. -/
theorem test_div_to_b : (after (with01 7 200 (at0 [0xA3, 0x00, 0x01]))).map (fun t => (t.reg 0, t.reg 1)) = some (7, 28) := by decide
theorem test_div_zero :
    (after (with01 0 5 (at0 [0xA3, 0x00, 0x01]))).map (fun t => (t.run, t.fault, t.reg 1, t.pc))
      = some (.error, some ⟨.divideByZero, 0xA3, 0⟩, 5, 0) := by decide
/-- V101 (unsigned), V113 (all three flags rewritten). -/
theorem test_cmp_unsigned : (after (with01 128 127 (at0 [0xA7, 0x00, 0x01]))).map (·.fl) = some ⟨false, true, false⟩ := by decide
theorem test_cmp_overwrites :
    (after ((with01 2 2 (at0 [0xA7, 0x00, 0x01])).setFlags ⟨true, false, false⟩)).map (·.fl) = some ⟨false, false, true⟩ := by decide
/-- V122, V123. -/
theorem test_jmp : (after (at0 [0x54, 0x07])).map (·.pc) = some 0xF4 := by decide
theorem test_jmp_illegal :
    (after (at0 [0x54, 0x08])).map (fun t => (t.run, t.fault, t.pc)) = some (.error, some ⟨.invalidRegisterIndex, 0x54, 0⟩, 0) := by
  decide
/-- V124, V130. -/
theorem test_jeq : (after (((at0 [0x55, 0x03]).setReg 3 0x40).setFlags ⟨false, false, true⟩)).map (·.pc) = some 0x40 := by decide
theorem test_jeq_illegal_not_taken :
    (after ((at0 [0x55, 0x09]).setFlags ⟨true, false, false⟩)).map (·.fault) = some (some ⟨.invalidRegisterIndex, 0x55, 0⟩) := by decide
/-- V128, V129. -/
theorem test_jne_not_taken :
    (after (((at0 [0x56, 0x03]).setReg 3 0x40).setFlags ⟨false, false, true⟩)).map (·.pc) = some 0x02 := by decide
theorem test_jne_reset_flags : (after ((at0 [0x56, 0x03]).setReg 3 0x40)).map (·.pc) = some 0x40 := by decide
/-- V5, V6. -/
theorem test_invalid_opcode :
    (after (at0 [0x83, 0x00, 0x08])).map (fun t => (t.run, t.fault, t.reg 0)) = some (.error, some ⟨.invalidOpcode, 0x83, 0⟩, 0) := by
  decide
/-- V140, V142. -/
theorem test_init_empty : State.init [] = .loaded State.reset := by decide
theorem test_init_too_long : State.init (List.replicate 257 0x01) = .imageTooLong :=
  if_neg (by rw [List.length_replicate]; decide)
/-- R102: the observer sees the triple of the next fetch. -/
theorem test_trace : (at0 [0x82, 0x00, 0x08]).traceView.triple = ⟨0x82, 0x00, 0x08⟩ := by decide
/-- The host's question: a table word placed at reset runs as the first instruction. -/
theorem test_withFetchWord : (after (State.reset.withFetchWord 24 0x080182)).map (·.reg 1) = some 8 := by decide

/-! ## A witness for the hypotheses of every statement -/

theorem witness_wellFormed : (Instr.cmp 7 0).WellFormed ∧ (Instr.ldi 7 255).WellFormed := by decide
theorem witness_notWellFormed : ¬ (Instr.jeq 8).WellFormed ∧ ¬ (Instr.div 0 255).WellFormed := by decide
theorem witness_DecodedTriples : decode ⟨0xA7, 7, 0⟩ = .ok (.cmp 7 0) := by decide
theorem witness_StepRunsTheDecodedInstruction :
    (at0 [0x82, 7, 9]).run = .running ∧
    decode ⟨(at0 [0x82, 7, 9]).load 0, (at0 [0x82, 7, 9]).load 1, (at0 [0x82, 7, 9]).load 2⟩ = .ok (.ldi 7 9) := by decide
theorem witness_UnrecognizedOpcode : State.reset.run = .running ∧ ∀ i : Instr, i.opcode ≠ State.reset.load State.reset.pc :=
  ⟨rfl, fun i h => absurd (h ▸ (by cases i <;> simp [Instr.opcode, opcodes] : i.opcode ∈ opcodes)) (by decide)⟩
theorem witness_IllegalRegisterByte :
    ¬ (Instr.jeq 8).WellFormed ∧ (at0 [0x55, 8]).run = .running ∧ AtPc (at0 [0x55, 8]) (encode (.jeq 8)) := by
  unfold AtPc; decide
theorem witness_DivisionByZero :
    Names 0 0 ∧ Names 7 7 ∧ min (State.reset.reg 0).toNat (State.reset.reg 7).toNat = 0 := by unfold Names; decide
theorem witness_Cause_invalidOpcode : CauseHolds State.reset .invalidOpcode := by unfold CauseHolds; decide
theorem witness_Cause_invalidRegisterIndex : CauseHolds (at0 [0x47, 8]) .invalidRegisterIndex := by unfold CauseHolds; decide
theorem witness_Cause_divideByZero : CauseHolds (at0 [0xA3, 0, 7]) .divideByZero := ⟨0, 7, 0, 7, by decide⟩
theorem witness_no_Cause (c : Cause) : ¬ CauseHolds (at0 [0x82, 7, 9]) c := by
  have h : decode (at0 [0x82#8, 7#8, 9#8]).fetch = .ok (.ldi 7 9) := by decide
  cases c <;> simp [CauseHolds, h]
theorem witness_TerminalStates : (State.reset.halt).run = .halted ∧ (State.reset.raise .invalidOpcode 0).run = .error := by decide
theorem witness_StepHalts : ∃ t, step (at0 [0x01]) = .next t ∧ t.run = .halted := ⟨_, rfl, rfl⟩
theorem witness_StepGoesOn : ∃ t, step (at0 [0x82, 7, 9]) = .next t ∧ t.run = .running := ⟨_, rfl, rfl⟩
/-- Every register is named by a byte, the boundary registers 0 and 7 among them. -/
theorem witness_Names (r : Reg) : Names (BitVec.ofNat 8 r.val) r := by revert r; unfold Names; decide
theorem witness_registerByteAbove7 : 7 < (8 : Byte).toNat ∧ 7 < (255 : Byte).toNat := by decide
/-- The bytes of an instruction at `pc`, for a three byte form that wraps over the top of memory and for a one byte form. -/
theorem witness_RunsAs_three :
    ((State.reset.storeBytes 0xFF [0x82, 7, 9]).setPc 0xFF).run = .running ∧
    AtPc ((State.reset.storeBytes 0xFF [0x82, 7, 9]).setPc 0xFF) [0x82, 7, 9] := by unfold AtPc; decide
theorem witness_RunsAs_two : (at0 [0x47, 255]).run = .running ∧ AtPc (at0 [0x47, 255]) [0x47, 255] := by unfold AtPc; decide
theorem witness_RunsAs_one : (at0 [0x01]).run = .running ∧ AtPc (at0 [0x01]) [0x01] := by unfold AtPc; decide
theorem witness_pop_clauses : (0 : Reg) ≠ 7 ∧ Names 0 0 ∧ Names 7 7 := by unfold Names; decide
/-- SUB and DIV: the first branch at a tie, and the second. -/
theorem witness_larger_a : ((with01 5 5 State.reset).reg 0).toNat ≥ ((with01 5 5 State.reset).reg 1).toNat ∧
    min ((with01 5 5 State.reset).reg 0).toNat ((with01 5 5 State.reset).reg 1).toNat ≠ 0 := by decide
theorem witness_larger_b : ((with01 5 6 State.reset).reg 0).toNat < ((with01 5 6 State.reset).reg 1).toNat ∧
    min ((with01 5 6 State.reset).reg 0).toNat ((with01 5 6 State.reset).reg 1).toNat ≠ 0 := by decide
theorem witness_cmp_clauses :
    ((with01 5 6 State.reset).reg 0).toNat < ((with01 5 6 State.reset).reg 1).toNat ∧
    ((with01 6 5 State.reset).reg 0).toNat > ((with01 6 5 State.reset).reg 1).toNat ∧
    ((with01 5 5 State.reset).reg 0).toNat = ((with01 5 5 State.reset).reg 1).toNat := by decide
theorem witness_jump_clauses :
    State.reset.fl.equal = false ∧ (State.reset.setFlags ⟨false, false, true⟩).fl.equal = true := by decide
theorem witness_FlagsWritten : ∃ t, exec (.add 0 1) State.reset = .next t ∧ ∀ a b, Instr.add 0 1 ≠ .cmp a b :=
  ⟨_, rfl, by simp⟩
theorem witness_FlagsRead :
    (∀ a, Instr.cmp 0 1 ≠ .jeq a) ∧ (∀ a, Instr.cmp 0 1 ≠ .jne a) ∧ (⟨true, false, false⟩ : Flags).equal = State.reset.fl.equal := by
  simp [State.reset]
theorem witness_MemoryIsWritten : ∃ t, exec (.push 7) State.reset = .next t ∧ t.load 0xF3 ≠ State.reset.load 0xF3 :=
  ⟨_, rfl, by decide⟩
theorem witness_RegistersChange : ∃ t, exec (.sub 0 7) (with01 1 0 State.reset) = .next t ∧
    t.reg 7 ≠ (with01 1 0 State.reset).reg 7 := ⟨_, rfl, by decide⟩
theorem witness_StoresAreSeen : (∃ t, Names 0 0 ∧ exec (.push 0) State.reset = .next t) ∧ ∃ t, exec (.call 0) State.reset = .next t :=
  ⟨⟨_, rfl, rfl⟩, ⟨_, rfl⟩⟩
theorem witness_RetResumes : ∃ t, Names 7 7 ∧ exec (.call 7) State.reset = .next t ∧ t.reg 7 = 0xF3 := ⟨_, rfl, rfl, by decide⟩
/-- A run that ends at a HLT, from a state that meets the invariant. -/
theorem witness_EndsAt_halted : Inv (at0 [0x01]) ∧ EndsAt (at0 [0x01]) (at0 [0x01]).halt :=
  ⟨⟨rfl, .inl rfl, ⟨by decide, fun f h => by cases h⟩, fun h => by cases h⟩, by decide, 1, rfl⟩
/-- A run that ends at a faulting instruction, from a state that meets the invariant. -/
theorem witness_EndsAt_error : Inv State.reset ∧ EndsAt State.reset (State.reset.raise .invalidOpcode 0x00) :=
  ⟨⟨rfl, .inl rfl, ⟨by decide, fun f h => by cases h⟩, fun h => by cases h⟩, by decide, 1, rfl⟩
theorem witness_JumpToItself :
    Names 0 0 ∧ (at0 [0x54, 0]).run = .running ∧ AtPc (at0 [0x54, 0]) [0x54, 0] ∧ (at0 [0x54, 0]).reg 0 = (at0 [0x54, 0]).pc := by
  unfold AtPc Names; decide
theorem witness_CanonicalMemories : Memory.wf [(0, 1), (255, 7)] = true ∧
    Memory.write (Memory.write [] 255 7) 0 1 = [(0, 1), (255, 7)] := by decide
theorem witness_image_lengths : (List.replicate 256 (0x01 : Byte)).length ≤ 256 ∧ 256 < (List.replicate 257 (0x01 : Byte)).length := by
  rw [List.length_replicate, List.length_replicate]; decide
theorem witness_EveryLoadedMachine : ∃ s, State.init [0x01] = .loaded s := ⟨_, rfl⟩
/-- A state that meets the invariant and has a step that ends in HALTED. -/
theorem witness_Invariant : Inv (at0 [0x01]) ∧ ∃ t, step (at0 [0x01]) = .next t :=
  ⟨⟨rfl, .inl rfl, ⟨by decide, fun f h => by cases h⟩, fun h => by cases h⟩, _, rfl⟩

end Sys2Proof.Tests
end

/-! PROOFS of the family `10_state.md`: who writes and who reads the condition flags (R20). The idea: an instruction that
neither writes nor reads the flags commutes with replacing them, and commuting says both at once. -/

namespace Sys2Proof.Claims

open Sys2Proof.Machine

/-! ## Register operands -/

/-- Two executions of one register operand are related when their faults are and their bodies are for every register: which of
the two happens depends on the operand byte alone (R53). -/
theorem withReg_rel {R : Result → Result → Prop} {op byte : Byte} {s₁ s₂ : State} {body₁ body₂ : Reg → Result}
    (hraise : R (.next (s₁.raise .invalidRegisterIndex op)) (.next (s₂.raise .invalidRegisterIndex op)))
    (hbody : ∀ r, R (body₁ r) (body₂ r)) : R (withReg op byte s₁ body₁) (withReg op byte s₂ body₂) := by
  cases h : regOperand byte with
  | some r => rw [withReg_some h, withReg_some h]; exact hbody r
  | none => rw [withReg_none h, withReg_none h]; exact hraise

/-! ## Flags carried through unread and unwritten -/

/-- Both answers are next states, and the first is the second with `f` as its flags. -/
def SameWithFlags (f : Flags) (r₁ r₂ : Result) : Prop := ∃ t : State, r₁ = .next (t.setFlags f) ∧ r₂ = .next t

theorem SameWithFlags.agreeButFlags {f : Flags} {r₁ r₂ : Result} : SameWithFlags f r₁ r₂ → AgreeButFlags r₁ r₂
  | ⟨t, h₁, h₂⟩ => ⟨t.setFlags f, t, h₁, h₂, rfl⟩

/-- Replacing the flags by themselves shows that they are kept. -/
theorem SameWithFlags.fl_eq {f : Flags} {r : Result} {t : State} (h : SameWithFlags f r r) (ht : r = .next t) : t.fl = f := by
  obtain ⟨u, h₁, -⟩ := h
  rw [ht] at h₁
  injection h₁ with h₁
  rw [h₁, State.setFlags_fl]

theorem withReg_sameWithFlags {f : Flags} {op byte : Byte} {s : State} {body₁ body₂ : Reg → Result}
    (h : ∀ r, SameWithFlags f (body₁ r) (body₂ r)) :
    SameWithFlags f (withReg op byte (s.setFlags f) body₁) (withReg op byte s body₂) :=
  withReg_rel ⟨_, rfl, rfl⟩ h

theorem jumpIf_setFlags (s : State) (f : Flags) (cond : Bool) (ra : Reg) :
    (s.setFlags f).jumpIf cond ra = (s.jumpIf cond ra).setFlags f := by cases cond <;> rfl

/-- No ALU operation but CMP answers flags (R75, R77 to R81). -/
theorem alu_ne_flags {op : AluOp} (hop : op ≠ .cmp) (va vb : Byte) (g : Flags) : alu op va vb ≠ .flags g := by
  cases op with
  | add | mul => exact nofun
  | sub => simp only [alu, aluSub]; split <;> exact nofun
  | div => simp only [alu, aluDiv]; split <;> split <;> exact nofun
  | cmp => exact absurd rfl hop

theorem applyAlu_setFlags {res : AluResult} (hres : ∀ g, res ≠ .flags g) (opcode : Byte) (ra rb : Reg) (s : State)
    (f : Flags) : applyAlu opcode ra rb (s.setFlags f) res = (applyAlu opcode ra rb s res).setFlags f := by
  cases res with
  | toA | toB | divideByZero => rfl
  | flags g => exact absurd rfl (hres g)

theorem execAlu_sameWithFlags {op : AluOp} (hop : op ≠ .cmp) (opcode a b : Byte) (s : State) (f : Flags) :
    SameWithFlags f (execAlu op opcode a b (s.setFlags f)) (execAlu op opcode a b s) :=
  withReg_sameWithFlags fun _ => withReg_sameWithFlags fun _ =>
    ⟨_, congrArg _ (applyAlu_setFlags (alu_ne_flags hop _ _) ..), rfl⟩

/-- Every instruction but CMP carries other flags through and does the same beside, JEQ and JNE provided that EQUAL is the
same. -/
theorem exec_sameWithFlags {i : Instr} {s : State} {f : Flags} (hcmp : ∀ a b, i ≠ .cmp a b)
    (hjeq : ∀ a, i = .jeq a → f.equal = s.fl.equal) (hjne : ∀ a, i = .jne a → f.equal = s.fl.equal) :
    SameWithFlags f (exec i (s.setFlags f)) (exec i s) := by
  cases i with
  | hlt | ret => exact ⟨_, rfl, rfl⟩
  | ldi | prn | push | pop | call | jmp => exact withReg_sameWithFlags fun _ => ⟨_, rfl, rfl⟩
  | add | sub | mul | div => exact execAlu_sameWithFlags (by decide) ..
  | cmp a b => exact absurd rfl (hcmp a b)
  | jeq a =>
    have hE : (s.setFlags f).equalSet = s.equalSet := hjeq a rfl
    exact withReg_sameWithFlags fun ra => ⟨s.jumpIf s.equalSet ra, by rw [hE, jumpIf_setFlags], rfl⟩
  | jne a =>
    have hE : (s.setFlags f).equalSet = s.equalSet := hjne a rfl
    exact withReg_sameWithFlags fun ra => ⟨s.jumpIf (!s.equalSet) ra, by rw [hE, jumpIf_setFlags], rfl⟩

/-! ## CMP -/

/-- CMP writes the flags but does not read them. -/
theorem execCmp_agreeButFlags (a b : Byte) (s : State) (f : Flags) :
    AgreeButFlags (execCmp a b (s.setFlags f)) (execCmp a b s) :=
  withReg_rel ⟨_, _, rfl, rfl, rfl⟩ fun _ => withReg_rel ⟨_, _, rfl, rfl, rfl⟩ fun _ => ⟨_, _, rfl, rfl, rfl⟩

/-- Other flags leave every instruction's effect on everything else as it is, JEQ and JNE provided that EQUAL is the same. -/
theorem exec_agreeButFlags {i : Instr} {s : State} {f : Flags} (hjeq : ∀ a, i = .jeq a → f.equal = s.fl.equal)
    (hjne : ∀ a, i = .jne a → f.equal = s.fl.equal) : AgreeButFlags (exec i (s.setFlags f)) (exec i s) := by
  by_cases hcmp : ∃ a b, i = .cmp a b
  · obtain ⟨a, b, rfl⟩ := hcmp
    exact execCmp_agreeButFlags a b s f
  · exact (exec_sameWithFlags (fun a b h => hcmp ⟨a, b, h⟩) hjeq hjne).agreeButFlags

/-- Settles O29: what is not CMP commutes with replacing the flags, so it keeps them; where EQUAL is unread or unchanged, the
rest of the answer is the same. -/
theorem flagsAreWrittenByCmpAndReadByConditionalJumps : Obligations.FlagsAreWrittenByCmpAndReadByConditionalJumps := by
  refine ⟨fun i s t ht hcmp => ?_, fun i s f hjeq hjne => ?_, fun i s f hE => ?_⟩
  · have h : SameWithFlags s.fl (exec i s) (exec i s) := exec_sameWithFlags hcmp (fun _ _ => rfl) (fun _ _ => rfl)
    exact h.fl_eq ht
  · exact exec_agreeButFlags (fun a h => absurd h (hjeq a)) (fun a h => absurd h (hjne a))
  · exact exec_agreeButFlags (fun _ _ => hE) (fun _ _ => hE)

end Sys2Proof.Claims

/-! PROOFS of the family `20_memory.md`: what a byte of memory reads as after a write (R33). The idea: erasing the entry and
inserting one are two forms of the same update, so a read after a write need not know which of them took place. -/

namespace Sys2Proof.Machine

/-! ## Reading after a write -/

/-- Writing zero erases and writing anything else inserts; a lookup cannot tell the two apart. -/
theorem Memory.lookup_write (m : Memory) (addr v : Byte) (k : Nat) :
    Memory.lookup (Memory.write m addr v) k = if addr.toNat = k then v else Memory.lookup m k := by
  unfold Memory.write
  split
  · next hv => rw [Memory.lookup_erase, hv]
  · exact Memory.lookup_insert ..

theorem Memory.read_write (m : Memory) (addr v q : Byte) :
    Memory.read (Memory.write m addr v) q = if addr = q then v else Memory.read m q := by
  simp only [Memory.read, Memory.lookup_write, BitVec.toNat_inj]

namespace State

variable (s : State)

@[simp] theorem store_load (addr v q : Byte) : (s.store addr v).load q = if addr = q then v else s.load q :=
  Memory.read_write ..

theorem store_load_same (addr v : Byte) : (s.store addr v).load addr = v := by simp

theorem store_load_of_ne {addr q : Byte} (v : Byte) (h : q ≠ addr) : (s.store addr v).load q = s.load q := by
  simp [Ne.symm h]

end State

end Sys2Proof.Machine

namespace Sys2Proof.Claims

open Sys2Proof.Machine

/-- Settles O38: the two cases of a read after a store; that a store changes nothing but memory is its definition. -/
theorem aWriteIsReadBackAndLeavesTheRest : Obligations.AWriteIsReadBackAndLeavesTheRest := by
  intro s addr v
  refine ⟨State.store_load_same s addr v, ?_, rfl⟩
  intro q hq
  exact State.store_load_of_ne s v hq

end Sys2Proof.Claims

/-! PROOFS of the family `40_dispatch.md`: an opcode byte that is no instruction's ends the run (R65). The idea: every row of
the opcode map carries the opcode of its own instruction, so such a byte matches no row, whatever the operand bytes. -/

namespace Sys2Proof

/-! ## The opcode match, from the side of the instructions -/

/-- The opcode map and `Instr.opcode` say the same of every instruction (R49). -/
theorem opcode_of_mem_opcodeRows {a b : Byte} : ∀ row ∈ opcodeRows a b, row.2.opcode = row.1 := by
  simp [opcodeRows, Instr.opcode]

theorem opcode_of_matchOpcode {t : Triple} {i : Instr} (h : matchOpcode t = some i) : i.opcode = t.op :=
  opcode_of_mem_opcodeRows _ (matchOpcode_mem h)

theorem decode_of_forall_opcode_ne {t : Triple} (h : ∀ i : Instr, i.opcode ≠ t.op) :
    decode t = .reject .unrecognizedOpcode :=
  decode_unrecognized.2 (Option.eq_none_iff_forall_ne_some.2 fun i hi => h i (opcode_of_matchOpcode hi))

end Sys2Proof

namespace Sys2Proof.Claims

open Sys2Proof.Machine

/-! ## Fault entry and refused triples -/

/-- `State.raise` is the fault entry of R92: its record, and nothing else changed. -/
theorem raised_raise (cause : Cause) (op : Byte) (s : State) : Raised cause op s (s.raise cause op) :=
  ⟨rfl, rfl, fun _ _ => rfl, rfl, rfl, fun _ => rfl, rfl⟩

/-- A RUNNING machine answers a triple the decoder refuses with the fault of the refusal (R62). -/
theorem step_reject {s : State} {why : DecodeError} (hrun : s.run = .running) (h : decode s.fetch = .reject why) :
    step s = .next (s.raise (decodeCause why) (s.load s.pc)) :=
  (step_running hrun).trans (cycle_reject h)

/-- R66: no step follows a state that is not RUNNING. -/
theorem step_ne_next_of_not_running {s : State} (h : s.run ≠ .running) (t : State) : step s ≠ .next t :=
  fun ht => h (running_of_step ht)

/-- Settles O7: the byte matches no row, so the decoder refuses the triple and the step raises InvalidOpcode; in ERROR the run
is reported as a failure and has no further step. -/
theorem unrecognizedOpcodeEndsInError : Obligations.UnrecognizedOpcodeEndsInError := by
  intro s hrun hop
  have hdecode : decode s.fetch = .reject .unrecognizedOpcode := decode_of_forall_opcode_ne hop
  have hraised := raised_raise .invalidOpcode (s.load s.pc) s
  have herror : (s.raise .invalidOpcode (s.load s.pc)).run ≠ .running := by simp
  exact ⟨_, step_reject hrun hdecode, hraised, rfl, step_ne_next_of_not_running herror⟩

end Sys2Proof.Claims

/-! PROOFS of the family `70_reset_and_hazards.md`: what memory reads as after an image is loaded (R107). The idea: bytes stored
from an address on are read at their distance from it, modulo 256; at most 256 of them do not overlap. -/

namespace Sys2Proof.Machine

/-! ## Reading after a run of stores -/

/-- An address other than `addr` is one nearer to the next address. -/
theorem distance_eq_succ {addr q : Byte} (h : q ≠ addr) : (q - addr).toNat = (q - (addr + 1)).toNat + 1 := by bv_omega

/-- An address is the whole wrap away from the next one. -/
theorem distance_from_next (addr : Byte) : (addr - (addr + 1)).toNat = 255 := by bv_omega

/-- At most 256 bytes do not overlap as they wrap, so each is still there at the end. -/
theorem State.storeBytes_load {bytes : List Byte} (hlen : bytes.length ≤ 256) (s : State) (addr q : Byte) :
    (s.storeBytes addr bytes).load q = bytes.getD (q - addr).toNat (s.load q) := by
  induction bytes generalizing s addr with
  | nil => rfl
  | cons v vs ih =>
    rw [List.length_cons] at hlen
    have htail : ((s.store addr v).storeBytes (addr + 1) vs).load q
        = vs.getD (q - (addr + 1)).toNat ((s.store addr v).load q) := ih (by omega) ..
    rw [State.storeBytes, htail]
    by_cases hq : q = addr
    · subst hq
      have hpast : vs.length ≤ (q - (q + 1)).toNat := by rw [distance_from_next]; omega
      rw [List.getD_eq_default _ _ hpast, store_load_same, BitVec.sub_self]
      rfl
    · rw [distance_eq_succ hq, List.getD_cons_succ, store_load_of_ne s v hq]

/-! ## Loading -/

theorem State.init_of_length_le {image : List Byte} (h : image.length ≤ 256) :
    State.init image = .loaded (State.reset.storeBytes loadBase image) := if_pos h

end Sys2Proof.Machine

namespace Sys2Proof.Claims

open Sys2Proof.Machine

/-- Settles O41: the load is a run of stores from address 0 over the reset memory, which reads 0 everywhere. -/
theorem initPlacesTheImageFromAddressZero : Obligations.InitPlacesTheImageFromAddressZero := by
  intro image hlen
  refine ⟨_, State.init_of_length_le hlen, fun addr => ?_, State.storeBytes_eq ..⟩
  calc (State.reset.storeBytes loadBase image).load addr
      = image.getD (addr - loadBase).toNat (State.reset.load addr) := State.storeBytes_load hlen ..
    _ = image.getD addr.toNat 0#8 := by rw [loadBase, BitVec.sub_zero]; rfl

end Sys2Proof.Claims

/-! PROOFS of the family `other`, the encoding (`30_encoding.md` R47 to R55). The idea: the opcode match gives an instruction back
from its encoding whether or not its operands are legal, so the register check alone decides between the two answers. -/

namespace Sys2Proof

/-! ## The opcode match against the encoder -/

/-- The opcode bytes are pairwise distinct, so the row of an instruction is the first, and the only one, to match. -/
theorem matchOpcode_encode (i : Instr) (rest : List Byte) : matchOpcode (Triple.ofBytes (encode i ++ rest)) = some i := by
  cases i <;> rfl

/-- Every row of the opcode map encodes to the opcode of the row and the operand bytes that its format declares (R47, R49). -/
theorem encode_of_mem_opcodeRows {a b : Byte} : ∀ row ∈ opcodeRows a b, encode row.2 = [row.1, a, b].take row.2.width := by
  simp [opcodeRows, encode, Instr.width, Instr.format, Format.width, opcHlt, opcLdi, opcPrn, opcPush, opcPop, opcCall, opcRet,
    opcAdd, opcSub, opcMul, opcDiv, opcCmp, opcJmp, opcJeq, opcJne]

/-- The opcode map in the rising order of R55's list. -/
theorem opcodes_perm : opcodes.Perm [0x01#8, 0x11#8, 0x45#8, 0x46#8, 0x47#8, 0x50#8, 0x54#8, 0x55#8, 0x56#8, 0x82#8, 0xA0#8,
    0xA1#8, 0xA2#8, 0xA3#8, 0xA7#8] := by decide

end Sys2Proof

namespace Sys2Proof.Claims

open Sys2Proof.Machine

/-- Settles O1: the opcode match gives the instruction back, and it passes the register check. -/
theorem encodedInstructionsDecodeBack : Obligations.EncodedInstructionsDecodeBack :=
  fun i rest hwf => decode_eq_ok.2 ⟨matchOpcode_encode i rest, hwf⟩

/-- Settles O2: an accepted triple matches a row of the opcode map, and the rows agree with the encoder. -/
theorem decodedTriplesAreEncodings : Obligations.DecodedTriplesAreEncodings := by
  intro op a b i h
  obtain ⟨hmatch, hwf⟩ := decode_eq_ok.1 h
  exact ⟨hwf, encode_of_mem_opcodeRows _ (matchOpcode_mem hmatch)⟩

/-- Settles O4: the decoder refuses the opcode exactly where it matches no row, and the rows carry the listed bytes. -/
theorem onlyTheListedOpcodeBytesAreRecognized : Obligations.OnlyTheListedOpcodeBytesAreRecognized := by
  intro op a b
  rw [decode_unrecognized, matchOpcode_eq_none, opcodes_perm.mem_iff]

/-- Settles O5: the opcode match gives the instruction back, and it fails the register check. -/
theorem registerBytesAboveSevenAreRefused : Obligations.RegisterBytesAboveSevenAreRefused :=
  fun i rest hwf => decode_registerAbove7.2 ⟨i, matchOpcode_encode i rest, hwf⟩

/-- Settles O3: twelve closed decodings, evaluated. -/
theorem sampleWordsOfEveryFamilyDecode : Obligations.SampleWordsOfEveryFamilyDecode := by
  unfold Obligations.SampleWordsOfEveryFamilyDecode
  decide

end Sys2Proof.Claims

/-! PROOFS of the family `other`, what an instruction can do (`40_dispatch.md` R62). The idea: `exec` answers exactly the next
states of the relation `Executes`, one constructor per meaning, so a fact about every instruction is a case split of it. -/

namespace Sys2Proof.Machine

/-! ## Register operands and well-formedness -/

theorem wellFormed_of_one_register {i : Instr} {a : Byte} (hi : i.registerFields = [a]) :
    i.WellFormed ↔ ∃ r, regOperand a = some r := by
  simp [Instr.WellFormed, Instr.wellFormed, hi, regOperand]

theorem wellFormed_of_two_registers {i : Instr} {a b : Byte} (hi : i.registerFields = [a, b]) :
    i.WellFormed ↔ (∃ ra, regOperand a = some ra) ∧ ∃ rb, regOperand b = some rb := by
  simp [Instr.WellFormed, Instr.wellFormed, hi, regOperand]

theorem withReg_of_not_wellFormed {i : Instr} {op a : Byte} {s : State} {body : Reg → Result} (hwf : ¬ i.WellFormed)
    (hi : i.registerFields = [a]) : withReg op a s body = .next (s.raise .invalidRegisterIndex op) := by
  rw [wellFormed_of_one_register hi] at hwf
  exact withReg_none (Option.eq_none_iff_forall_ne_some.2 fun r hr => hwf ⟨r, hr⟩)

theorem withTwoRegs_of_not_wellFormed {i : Instr} {op a b : Byte} {s : State} {body : Reg → Reg → Result}
    (hwf : ¬ i.WellFormed) (hi : i.registerFields = [a, b]) :
    withTwoRegs op a b s body = .next (s.raise .invalidRegisterIndex op) := by
  rw [wellFormed_of_two_registers hi] at hwf
  obtain ⟨ra, rb, ha, hb, -⟩ | ⟨-, hraise⟩ := withTwoRegs_cases (op := op) (a := a) (b := b) (s := s) (body := body)
  · exact absurd ⟨⟨ra, ha⟩, rb, hb⟩ hwf
  · exact hraise

/-- Every handler checks its register bytes first and raises InvalidRegisterIndex for its own opcode (R61). -/
theorem exec_of_not_wellFormed {i : Instr} (s : State) (hwf : ¬ i.WellFormed) :
    exec i s = .next (s.raise .invalidRegisterIndex i.opcode) := by
  cases i with
  | hlt | ret => exact absurd rfl hwf
  | ldi | prn | push | pop | call | jmp | jeq | jne => exact withReg_of_not_wellFormed hwf rfl
  | add | sub | mul | div | cmp => exact withTwoRegs_of_not_wellFormed hwf rfl

/-! ## The relation -/

/-- The ALU instruction of an operation. -/
def AluOp.instr : AluOp → Byte → Byte → Instr
  | .add => .add
  | .sub => .sub
  | .mul => .mul
  | .div => .div
  | .cmp => .cmp

theorem exec_alu (op : AluOp) (a b : Byte) (s : State) : exec (op.instr a b) s = execAlu op (op.instr a b).opcode a b s := by
  cases op <;> rfl

theorem jumpIf_eq_setPc (s : State) (cond : Bool) (ra : Reg) :
    s.jumpIf cond ra = s.setPc (if cond then s.reg ra else s.pc + 2) := by cases cond <;> rfl

/-- What the instruction makes of the state: its effect where every register byte is legal, else the fault of R53.
`exec_eq_next` ties it to `exec`. -/
inductive Executes : Instr → State → State → Prop
  | hlt {s : State} : Executes .hlt s s.halt
  | ldi {a imm : Byte} {ra : Reg} {s : State} (ha : regOperand a = some ra) :
      Executes (.ldi a imm) s ((s.setReg ra imm).advance 3)
  | prn {a : Byte} {ra : Reg} {s : State} (ha : regOperand a = some ra) :
      Executes (.prn a) s ((s.output (s.reg ra)).advance 2)
  | push {a : Byte} {ra : Reg} {s : State} (ha : regOperand a = some ra) :
      Executes (.push a) s ((s.decSp.storeAtSp (s.decSp.reg ra)).advance 2)
  | pop {a : Byte} {ra : Reg} {s : State} (ha : regOperand a = some ra) :
      Executes (.pop a) s ((s.setReg ra (s.load s.sp)).incSp.advance 2)
  | call {a : Byte} {ra : Reg} {s : State} (ha : regOperand a = some ra) :
      Executes (.call a) s ((s.decSp.storeAtSp (s.pc + 2)).setPc (s.decSp.reg ra))
  | ret {s : State} : Executes .ret s (s.incSp.setPc (s.load s.sp))
  | alu (op : AluOp) {a b : Byte} {ra rb : Reg} {s : State} (ha : regOperand a = some ra) (hb : regOperand b = some rb) :
      Executes (op.instr a b) s (applyAlu (op.instr a b).opcode ra rb s (alu op (s.reg ra) (s.reg rb)))
  | jmp {a : Byte} {ra : Reg} {s : State} (ha : regOperand a = some ra) : Executes (.jmp a) s (s.setPc (s.reg ra))
  | jeq {a : Byte} {ra : Reg} {s : State} (ha : regOperand a = some ra) :
      Executes (.jeq a) s (s.setPc (if s.fl.equal then s.reg ra else s.pc + 2))
  | jne {a : Byte} {ra : Reg} {s : State} (ha : regOperand a = some ra) :
      Executes (.jne a) s (s.setPc (if !s.fl.equal then s.reg ra else s.pc + 2))
  | illegal {i : Instr} {s : State} (hwf : ¬ i.WellFormed) : Executes i s (s.raise .invalidRegisterIndex i.opcode)

theorem Executes.exec_eq {i : Instr} {s t : State} (h : Executes i s t) : exec i s = .next t := by
  cases h with
  | hlt => exact execHlt_eq s
  | ldi ha => exact execLdi_legal s ha _
  | prn ha => exact execPrn_legal s ha
  | push ha => exact execPush_legal s ha
  | pop ha => exact execPop_legal s ha
  | call ha => exact execCall_legal s ha
  | ret => exact execRet_eq s
  | alu op ha hb => rw [exec_alu, execAlu_legal ha hb]
  | jmp ha => exact execJmp_legal s ha
  | jeq ha => rw [← jumpIf_eq_setPc]; exact execJeq_legal s ha
  | jne ha => rw [← jumpIf_eq_setPc]; exact execJne_legal s ha
  | illegal hwf => exact exec_of_not_wellFormed s hwf

theorem exists_executes_alu {op : AluOp} {a b : Byte} (s : State) (hi : (op.instr a b).registerFields = [a, b])
    (hwf : (op.instr a b).WellFormed) : ∃ t, Executes (op.instr a b) s t := by
  obtain ⟨⟨ra, ha⟩, rb, hb⟩ := (wellFormed_of_two_registers hi).1 hwf
  exact ⟨_, .alu op ha hb⟩

theorem exists_executes (i : Instr) (s : State) : ∃ t, Executes i s t := by
  by_cases hwf : i.WellFormed
  case neg => exact ⟨_, .illegal hwf⟩
  case pos =>
    have operand {a : Byte} (hi : i.registerFields = [a]) : ∃ r, regOperand a = some r :=
      (wellFormed_of_one_register hi).1 hwf
    cases i with
    | hlt => exact ⟨_, .hlt⟩
    | ret => exact ⟨_, .ret⟩
    | ldi => exact (operand rfl).imp' _ fun _ => .ldi
    | prn => exact (operand rfl).imp' _ fun _ => .prn
    | push => exact (operand rfl).imp' _ fun _ => .push
    | pop => exact (operand rfl).imp' _ fun _ => .pop
    | call => exact (operand rfl).imp' _ fun _ => .call
    | jmp => exact (operand rfl).imp' _ fun _ => .jmp
    | jeq => exact (operand rfl).imp' _ fun _ => .jeq
    | jne => exact (operand rfl).imp' _ fun _ => .jne
    | add => exact exists_executes_alu (op := .add) s rfl hwf
    | sub => exact exists_executes_alu (op := .sub) s rfl hwf
    | mul => exact exists_executes_alu (op := .mul) s rfl hwf
    | div => exact exists_executes_alu (op := .div) s rfl hwf
    | cmp => exact exists_executes_alu (op := .cmp) s rfl hwf

theorem Executes.eq_of_exec {i : Instr} {s t u : State} (h : Executes i s t) (hu : exec i s = .next u) : t = u :=
  Host.Outcome.next.inj (h.exec_eq.symm.trans hu)

/-- The relation says once, and in full, what every instruction answers. -/
theorem exec_eq_next {i : Instr} {s t : State} : exec i s = .next t ↔ Executes i s t := by
  refine ⟨fun h => ?_, Executes.exec_eq⟩
  obtain ⟨u, hu⟩ := exists_executes i s
  exact hu.eq_of_exec h ▸ hu

end Sys2Proof.Machine

namespace Sys2Proof.Claims

open Sys2Proof.Machine

/-- Settles O12: every instruction executes, if only to raise its fault. -/
theorem everyInstructionAnswersANextState : Obligations.EveryInstructionAnswersANextState :=
  fun i s => (exists_executes i s).imp fun _ => Executes.exec_eq

end Sys2Proof.Claims

/-! PROOFS of the family `other`, the fetch (`40_dispatch.md` R59 to R62). The idea: the three fetched bytes begin with whatever
stands at `pc`, so an encoding at `pc` runs as its instruction: by decoding where it is legal, and by the same fault where not. -/

namespace Sys2Proof

/-- No instruction is longer than the triple that every fetch reads (R47, R48). -/
theorem encode_length_le (i : Instr) : (encode i).length ≤ 3 := by cases i <;> simp [encode]

end Sys2Proof

namespace Sys2Proof.Machine

open Sys2Proof.Claims

/-- The bytes of the three fetch addresses (R59). -/
def State.fetchedBytes (s : State) : List Byte := [s.load s.pc, s.load (s.pc + 1), s.load (s.pc + 2)]

theorem State.fetch_eq_ofBytes (s : State) : s.fetch = Triple.ofBytes s.fetchedBytes := rfl

/-- Addresses counted from `pc` as numbers wrap as the fetch does (R34). -/
theorem ofNat_toNat_add (pc : Byte) (k : Nat) : BitVec.ofNat 8 (pc.toNat + k) = pc + BitVec.ofNat 8 k := by
  rw [BitVec.ofNat_add, BitVec.ofNat_toNat, BitVec.setWidth_eq]

theorem ofNat_toNat_add_mod (pc : Byte) (k : Nat) : BitVec.ofNat 8 ((pc.toNat + k) % 256) = pc + BitVec.ofNat 8 k :=
  BitVec.eq_of_toNat_eq (by simp)

theorem load_ofNat_toNat_add (s : State) {k : Nat} (hk : k < 3) :
    s.load (BitVec.ofNat 8 (s.pc.toNat + k)) = s.fetchedBytes[k]'hk := by
  rw [ofNat_toNat_add]
  match k, hk with
  | 0, _ => exact congrArg s.load (BitVec.add_zero _)
  | 1, _ => rfl
  | 2, _ => rfl

/-- At most three bytes that stand at `pc` are the first that the fetch reads. -/
theorem fetchedBytes_prefix_of_atPc {s : State} {bytes : List Byte} (h : AtPc s bytes) (hlen : bytes.length ≤ 3) :
    bytes <+: s.fetchedBytes :=
  List.prefix_iff_getElem.2 ⟨hlen, fun k hk => (h k hk).symm.trans (load_ofNat_toNat_add s (by omega))⟩

theorem matchOpcode_fetch_of_atPc {s : State} {i : Instr} (h : AtPc s (encode i)) : matchOpcode s.fetch = some i := by
  obtain ⟨rest, hrest⟩ := fetchedBytes_prefix_of_atPc h (encode_length_le i)
  rw [State.fetch_eq_ofBytes, ← hrest, matchOpcode_encode]

/-! ## The step on a fetched instruction -/

theorem step_of_decode_ok {s : State} {i : Instr} (hrun : s.run = .running) (h : decode s.fetch = .ok i) :
    step s = exec i s := (step_running hrun).trans (cycle_ok h)

/-- The check of the decoder and the check of the handler raise the same fault. -/
theorem step_of_matchOpcode {s : State} {i : Instr} (hrun : s.run = .running) (h : matchOpcode s.fetch = some i) :
    step s = exec i s := by
  by_cases hwf : i.WellFormed
  · exact step_of_decode_ok hrun (decode_eq_ok.2 ⟨h, hwf⟩)
  · rw [step_reject hrun (decode_registerAbove7.2 ⟨i, h, hwf⟩), exec_of_not_wellFormed s hwf, opcode_of_matchOpcode h]
    rfl

/-- R48, R62: the encoding of any instruction, legal or not, runs as the instruction wherever it stands at `pc`. -/
theorem runsAs_encode (i : Instr) : RunsAs (encode i) i :=
  fun _ hrun h => step_of_matchOpcode hrun (matchOpcode_fetch_of_atPc h)

end Sys2Proof.Machine

namespace Sys2Proof.Claims

open Sys2Proof.Machine

/-- Settles O8: the handler checks the register bytes first, and where the encoding stands at `pc` the step is the handler's. -/
theorem illegalRegisterByteEndsInError : Obligations.IllegalRegisterByteEndsInError := by
  refine ⟨fun i s hwf => ⟨_, exec_of_not_wellFormed s hwf, raised_raise ..⟩, fun i s hwf hrun hpc => ?_⟩
  have hop : i.opcode = s.load s.pc := opcode_of_matchOpcode (matchOpcode_fetch_of_atPc hpc)
  exact ⟨_, (runsAs_encode i s hrun hpc).trans (exec_of_not_wellFormed s hwf), hop ▸ raised_raise ..⟩

/-- Settles O6: the addresses `pc + 1` and `pc + 2` modulo 256 are those of the fetch. -/
theorem stepRunsTheDecodedInstruction : Obligations.StepRunsTheDecodedInstruction := by
  intro s i hrun h
  have hfetch : s.fetch = ⟨s.load s.pc, s.load (BitVec.ofNat 8 ((s.pc.toNat + 1) % 256)),
      s.load (BitVec.ofNat 8 ((s.pc.toNat + 2) % 256))⟩ := by
    rw [ofNat_toNat_add_mod, ofNat_toNat_add_mod]
    rfl
  exact step_of_decode_ok hrun (hfetch ▸ h)

end Sys2Proof.Claims

/-! PROOFS of the family `other`, the effect of an instruction on the memory and on the flags (`10_state.md` R20, `20_memory.md`
R32). -/

namespace Sys2Proof.Machine

open Sys2Proof.Claims

/-! ## Memory -/

/-- Memory stays as it is, or PUSH or CALL writes the one cell that the decremented pointer names. -/
theorem Executes.mem {i : Instr} {s t : State} (h : Executes i s t) :
    t.mem = s.mem ∨
    (((∃ a, i = .push a) ∨ ∃ a, i = .call a) ∧ ∃ v, t.mem = Memory.write s.mem s.decSp.sp v) := by
  cases h with
  | hlt | ldi | prn | pop | ret | jmp | jeq | jne | illegal => exact .inl rfl
  | alu => exact .inl (applyAlu_frame ..).1
  | push => exact .inr ⟨.inl ⟨_, rfl⟩, _, rfl⟩
  | call => exact .inr ⟨.inr ⟨_, rfl⟩, _, rfl⟩

theorem Executes.mem_wf {i : Instr} {s t : State} (h : Executes i s t) (hs : s.mem.wf = true) : t.mem.wf = true := by
  obtain hmem | ⟨-, v, hmem⟩ := h.mem
  · exact hmem ▸ hs
  · exact hmem ▸ Memory.write_wf _ v hs

theorem load_congr {s t : State} (h : t.mem = s.mem) (addr : Byte) : t.load addr = s.load addr :=
  congrArg (Memory.read · addr) h

/-! ## Flags -/

/-- The comparison, over the values as numbers. -/
theorem compareFlags_eq (va vb : Byte) : compareFlags va vb =
    ⟨decide (va.toNat < vb.toNat), decide (vb.toNat < va.toNat), decide (va.toNat = vb.toNat)⟩ := by
  simp only [compareFlags, BitVec.lt_def, BitVec.toNat_inj]

theorem compareFlags_of_lt {va vb : Byte} (h : va.toNat < vb.toNat) : compareFlags va vb = ⟨true, false, false⟩ := by
  rw [compareFlags_eq, decide_eq_true h, decide_eq_false h.not_gt, decide_eq_false h.ne]

theorem compareFlags_of_gt {va vb : Byte} (h : vb.toNat < va.toNat) : compareFlags va vb = ⟨false, true, false⟩ := by
  rw [compareFlags_eq, decide_eq_true h, decide_eq_false h.not_gt, decide_eq_false h.ne']

theorem compareFlags_of_eq {va vb : Byte} (h : va.toNat = vb.toNat) : compareFlags va vb = ⟨false, false, true⟩ := by
  rw [compareFlags_eq, decide_eq_true h, decide_eq_false h.not_lt, decide_eq_false h.not_gt]

theorem compareFlags_reachable (va vb : Byte) : (compareFlags va vb).Reachable := by
  obtain h | h | h := lt_trichotomy va.toNat vb.toNat
  · exact .inr (.inl (compareFlags_of_lt h))
  · exact .inr (.inr (.inr (compareFlags_of_eq h)))
  · exact .inr (.inr (.inl (compareFlags_of_gt h)))

theorem alu_flags_eq {op : AluOp} {va vb : Byte} {f : Flags} (h : alu op va vb = .flags f) : f = compareFlags va vb := by
  by_cases hop : op = .cmp
  · subst hop
    exact (AluResult.flags.inj h).symm
  · exact absurd h (alu_ne_flags hop va vb f)

theorem applyAlu_fl (op : AluOp) (va vb opcode : Byte) (ra rb : Reg) (s : State) :
    (applyAlu opcode ra rb s (alu op va vb)).fl = s.fl ∨
      (applyAlu opcode ra rb s (alu op va vb)).fl = compareFlags va vb := by
  cases hres : alu op va vb with
  | toA | toB | divideByZero => exact .inl rfl
  | flags f => exact .inr (alu_flags_eq hres)

/-- The flags stay as they are or come from a comparison. -/
theorem Executes.fl {i : Instr} {s t : State} (h : Executes i s t) : t.fl = s.fl ∨ ∃ va vb, t.fl = compareFlags va vb := by
  cases h with
  | hlt | ldi | prn | push | pop | call | ret | jmp | jeq | jne | illegal => exact .inl rfl
  | alu => exact (applyAlu_fl ..).imp_right fun h => ⟨_, _, h⟩

theorem Executes.fl_reachable {i : Instr} {s t : State} (h : Executes i s t) (hs : s.fl.Reachable) : t.fl.Reachable := by
  obtain hfl | ⟨va, vb, hfl⟩ := h.fl
  · exact hfl ▸ hs
  · exact hfl ▸ compareFlags_reachable va vb

end Sys2Proof.Machine

namespace Sys2Proof.Claims

open Sys2Proof.Machine

/-- Settles O31: where a byte reads differently the memory has changed, and the one cell written is the pointer's. -/
theorem memoryIsWrittenOnlyByPushAndCall : Obligations.MemoryIsWrittenOnlyByPushAndCall := by
  intro i s t addr ht hne
  obtain hmem | ⟨hi, v, hmem⟩ := (exec_eq_next.1 ht).mem
  · exact absurd (load_congr hmem addr) hne
  · refine ⟨hi, by_contra fun haddr => hne ?_⟩
    calc t.load addr = (s.store s.decSp.sp v).load addr := load_congr (s := s.store s.decSp.sp v) hmem addr
      _ = s.load addr := State.store_load_of_ne s v haddr

end Sys2Proof.Claims

/-! PROOFS of the family `other`, the run state, the fault record and the invariant (`40_dispatch.md` R62 to R66,
`60_exceptions.md` R88 to R95). The idea: a step goes on, halts or faults, and which of the three the state before it decides. -/

namespace Sys2Proof.Machine

open Sys2Proof.Claims

/-! ## The condition of a cause, read off the decoded triple -/

theorem causeHolds_of_decode_reject {s : State} {why : DecodeError} (h : decode s.fetch = .reject why) (c : Cause) :
    CauseHolds s c ↔ c = decodeCause why := by
  cases c <;> cases why <;> simp [CauseHolds, decodeCause, h]

theorem causeHolds_of_decode_ok {s : State} {i : Instr} (h : decode s.fetch = .ok i) (c : Cause) :
    CauseHolds s c ↔ c = .divideByZero ∧ ∃ a b ra rb, i = .div a b ∧ regOperand a = some ra ∧ regOperand b = some rb ∧
      min (s.reg ra).toNat (s.reg rb).toNat = 0 := by
  cases c <;> simp [CauseHolds, h]

/-- The conditions of the three causes exclude each other. -/
theorem causeHolds_unique {s : State} {c c' : Cause} (h : CauseHolds s c) (h' : CauseHolds s c') : c = c' := by
  cases hd : decode s.fetch with
  | ok i =>
    rw [causeHolds_of_decode_ok hd] at h h'
    exact h.1.trans h'.1.symm
  | reject why =>
    rw [causeHolds_of_decode_reject hd] at h h'
    exact h.trans h'.symm

theorem decode_fetch_of_hlt {s : State} (h : s.load s.pc = opcHlt) : decode s.fetch = .ok .hlt := by
  have hfetch : s.fetch = Triple.ofBytes (encode .hlt ++ [s.load (s.pc + 1), s.load (s.pc + 2)]) := by
    rw [State.fetch, h]; rfl
  exact decode_eq_ok.2 ⟨hfetch ▸ matchOpcode_encode .hlt _, rfl⟩

/-- HLT never faults. -/
theorem opcode_ne_hlt_of_causeHolds {s : State} {c : Cause} (h : CauseHolds s c) : s.load s.pc ≠ opcHlt := by
  intro hop
  obtain ⟨-, a, b, ra, rb, hi, -⟩ := (causeHolds_of_decode_ok (decode_fetch_of_hlt hop) c).1 h
  cases hi

/-! ## The ALU's one fault -/

theorem alu_eq_divideByZero {op : AluOp} {va vb : Byte} :
    alu op va vb = .divideByZero ↔ op = .div ∧ min va.toNat vb.toNat = 0 := by
  cases op with
  | add | mul | cmp => exact ⟨nofun, nofun⟩
  | sub =>
    obtain h | h := le_or_gt vb.toNat va.toNat
    · simp [alu, aluSub_of_le h]
    · simp [alu, aluSub_of_lt h]
  | div => simp only [alu, aluDiv_zero_iff, true_and]

theorem applyAlu_keepsStatus {res : AluResult} (h : res ≠ .divideByZero) (opcode : Byte) (ra rb : Reg) (s : State) :
    KeepsStatus s (applyAlu opcode ra rb s res) := by
  cases res with
  | toA | toB | flags => exact ⟨rfl, rfl⟩
  | divideByZero => exact absurd rfl h

theorem instr_eq_div {op : AluOp} {a b a' b' : Byte} : op.instr a b = .div a' b' ↔ op = .div ∧ a = a' ∧ b = b' := by
  cases op <;> simp [AluOp.instr]

theorem opcode_eq_hlt {i : Instr} : i.opcode = opcHlt ↔ i = .hlt := by
  cases i <;> simp [Instr.opcode, opcHlt, opcLdi, opcPrn, opcPush, opcPop, opcCall, opcRet, opcAdd, opcSub, opcMul, opcDiv,
    opcCmp, opcJmp, opcJeq, opcJne]

/-! ## The three outcomes of a step -/

/-- What a step from `s` to `t` amounts to for the run state and the record; `stepOutcome` ties it to `step`. -/
inductive StepOutcome (s t : State) : Prop
  | goesOn (hstatus : KeepsStatus s t) (hop : s.load s.pc ≠ opcHlt) (hcause : ∀ c, ¬ CauseHolds s c)
  | halts (hop : s.load s.pc = opcHlt) (ht : t = s.halt)
  | faults (c : Cause) (hcause : CauseHolds s c) (ht : t = s.raise c (s.load s.pc))

theorem stepOutcome_of_alu {s : State} {op : AluOp} {a b : Byte} {ra rb : Reg} (hd : decode s.fetch = .ok (op.instr a b))
    (ha : regOperand a = some ra) (hb : regOperand b = some rb) (hop : (op.instr a b).opcode = s.load s.pc) :
    StepOutcome s (applyAlu (op.instr a b).opcode ra rb s (alu op (s.reg ra) (s.reg rb))) := by
  by_cases hzero : alu op (s.reg ra) (s.reg rb) = .divideByZero
  · obtain ⟨rfl, hmin⟩ := alu_eq_divideByZero.1 hzero
    refine .faults .divideByZero ((causeHolds_of_decode_ok hd _).2 ⟨rfl, a, b, ra, rb, rfl, ha, hb, hmin⟩) ?_
    rw [hzero, hop]; rfl
  · refine .goesOn (applyAlu_keepsStatus hzero ..) ?_ fun c hc => hzero ?_
    · rw [← hop, Ne, opcode_eq_hlt]; cases op <;> exact nofun
    · obtain ⟨-, a', b', ra', rb', hi, ha', hb', hmin⟩ := (causeHolds_of_decode_ok hd c).1 hc
      obtain ⟨rfl, rfl, rfl⟩ := instr_eq_div.1 hi
      cases ha.symm.trans ha'
      cases hb.symm.trans hb'
      exact alu_eq_divideByZero.2 ⟨rfl, hmin⟩

theorem stepOutcome_of_executes {i : Instr} {s t : State} (hd : decode s.fetch = .ok i) (h : Executes i s t) :
    StepOutcome s t := by
  obtain ⟨hmatch, hwf⟩ := decode_eq_ok.1 hd
  have hop : i.opcode = s.load s.pc := opcode_of_matchOpcode hmatch
  have goesOn (hhlt : i ≠ .hlt) (hdiv : ∀ a b, i ≠ .div a b) (hstatus : KeepsStatus s t) : StepOutcome s t := by
    refine .goesOn hstatus (hop ▸ opcode_eq_hlt.not.2 hhlt) fun c hc => ?_
    obtain ⟨-, a, b, -, -, hi, -⟩ := (causeHolds_of_decode_ok hd c).1 hc
    exact hdiv a b hi
  cases h with
  | hlt => exact .halts hop.symm rfl
  | ldi | prn | push | pop | call | ret | jmp | jeq | jne => exact goesOn nofun nofun ⟨rfl, rfl⟩
  | alu op ha hb => exact stepOutcome_of_alu hd ha hb hop
  | illegal hill => exact absurd hwf hill

theorem stepOutcome {s t : State} (h : step s = .next t) : StepOutcome s t := by
  obtain ⟨-, ⟨i, hd, hi⟩ | ⟨why, hd, rfl⟩⟩ := step_cases h
  · exact stepOutcome_of_executes hd (exec_eq_next.1 hi)
  · exact .faults _ ((causeHolds_of_decode_reject hd _).2 rfl) rfl

theorem exists_step {s : State} (hrun : s.run = .running) : ∃ t, step s = .next t := by
  cases hd : decode s.fetch with
  | ok i => exact (exists_executes i s).imp fun _ h => (step_of_decode_ok hrun hd).trans h.exec_eq
  | reject why => exact ⟨_, step_reject hrun hd⟩

/-! ## The parts of the invariant -/

theorem step_mem_wf {s t : State} (h : step s = .next t) (hs : s.mem.wf = true) : t.mem.wf = true := by
  obtain ⟨-, ⟨i, -, hi⟩ | ⟨why, -, rfl⟩⟩ := step_cases h
  · exact (exec_eq_next.1 hi).mem_wf hs
  · exact hs

theorem step_fl_reachable {s t : State} (h : step s = .next t) (hs : s.fl.Reachable) : t.fl.Reachable := by
  obtain ⟨-, ⟨i, -, hi⟩ | ⟨why, -, rfl⟩⟩ := step_cases h
  · exact (exec_eq_next.1 hi).fl_reachable hs
  · exact hs

theorem faultRecordTrue_of_fault_none {s : State} (hrun : s.run ≠ .error) (hfault : s.fault = none) : FaultRecordTrue s :=
  ⟨by simp [hrun, hfault], by simp [hfault]⟩

/-- Fault entry changes nothing that the condition of the cause reads. -/
theorem faultRecordTrue_raise {s : State} {c : Cause} (h : CauseHolds s c) : FaultRecordTrue (s.raise c (s.load s.pc)) := by
  refine ⟨by simp, ?_⟩
  rintro _ ⟨⟩
  exact ⟨rfl, rfl, h⟩

theorem FaultRecordTrue.fault_eq_none {s : State} (h : FaultRecordTrue s) (hrun : s.run ≠ .error) : s.fault = none := by
  rwa [← Option.not_isSome_iff_eq_none, ← h.1]

theorem inv_of_running {s : State} (hmem : s.mem.wf = true) (hfl : s.fl.Reachable) (hrun : s.run = .running)
    (hfault : s.fault = none) : Inv s where
  memory := hmem
  flags := hfl
  record := faultRecordTrue_of_fault_none (by simp [hrun]) hfault
  halted := by simp [hrun]

theorem inv_of_step {s t : State} (hs : Inv s) (h : step s = .next t) : Inv t := by
  have hrun : s.run = .running := running_of_step h
  have hfault : s.fault = none := hs.record.fault_eq_none (by simp [hrun])
  have hmem := step_mem_wf h hs.memory
  have hfl := step_fl_reachable h hs.flags
  cases stepOutcome h with
  | goesOn hstatus => exact inv_of_running hmem hfl (hstatus.1.trans hrun) (hstatus.2.trans hfault)
  | halts hop ht =>
    subst ht
    exact ⟨hmem, hfl, faultRecordTrue_of_fault_none nofun hfault, fun _ => hop⟩
  | faults c hcause ht =>
    subst ht
    exact ⟨hmem, hfl, faultRecordTrue_raise hcause, nofun⟩

theorem inv_reset : Inv State.reset := inv_of_running State.reset_mem_wf (.inl rfl) rfl rfl

/-! ## Bounded runs -/

/-- What every step keeps, every bounded run keeps. -/
theorem runFor_induction {P : State → Prop} (hstep : ∀ s t, P s → step s = .next t → P t) {n : Nat} {s t : State}
    (hs : P s) (h : runFor n s = .next t) : P t := by
  induction n generalizing s with
  | zero => exact Host.Outcome.next.inj h ▸ hs
  | succ n ih =>
    by_cases hrun : s.run = .running
    · obtain ⟨u, hu⟩ := exists_step hrun
      exact ih (hstep s u hs hu) (runFor_succ hu ▸ h)
    · rw [runFor_terminal _ hrun] at h
      exact Host.Outcome.next.inj h ▸ hs

theorem exists_runFor (n : Nat) (s : State) : ∃ t, runFor n s = .next t := by
  induction n generalizing s with
  | zero => exact ⟨s, rfl⟩
  | succ n ih =>
    by_cases hrun : s.run = .running
    · obtain ⟨u, hu⟩ := exists_step hrun
      exact runFor_succ hu ▸ ih u
    · exact ⟨s, runFor_terminal _ hrun⟩

theorem runFor_of_step_self {s : State} (h : step s = .next s) (n : Nat) : runFor n s = .next s := by
  induction n with
  | zero => rfl
  | succ n ih => rw [runFor_succ h, ih]

end Sys2Proof.Machine

namespace Sys2Proof.Claims

open Sys2Proof.Machine

/-- Settles O45: memory and flags by the instruction's effect on them, the rest by the outcome of the step. -/
theorem everyStepKeepsTheInvariant : Obligations.EveryStepKeepsTheInvariant := fun _ _ => inv_of_step

/-- Settles O10: the condition of a cause leaves a step the one outcome, and where none holds it goes on or halts. -/
theorem stepFaultsExactlyInTheThreeCases : Obligations.StepFaultsExactlyInTheThreeCases := by
  intro s hrun
  obtain ⟨t, ht⟩ := exists_step hrun
  refine ⟨t, ht, ?_⟩
  cases stepOutcome ht with
  | goesOn hstatus _ hcause =>
    exact ⟨fun c hc => absurd hc (hcause c), fun _ => ⟨by simp [hstatus.1, hrun], hstatus.2⟩⟩
  | halts hop ht =>
    subst ht
    exact ⟨fun c hc => absurd hop (opcode_ne_hlt_of_causeHolds hc), fun _ => ⟨nofun, rfl⟩⟩
  | faults c hcause ht =>
    subst ht
    exact ⟨fun c' hc' => causeHolds_unique hcause hc' ▸ raised_raise .., fun hnone => absurd hcause (hnone c)⟩

/-- Settles O13: of the three outcomes of a step only one is HALTED, and it is the one of HLT's byte. -/
theorem stepHaltsExactlyOnHlt : Obligations.StepHaltsExactlyOnHlt := by
  intro s t h
  cases stepOutcome h with
  | goesOn hstatus hop =>
    have hrun : t.run ≠ .halted := by simp [hstatus.1, running_of_step h]
    exact ⟨iff_of_false hrun hop, fun hhalted => absurd hhalted hrun⟩
  | halts hop ht => subst ht; exact ⟨iff_of_true rfl hop, fun _ => rfl⟩
  | faults c hcause ht =>
    subst ht; exact ⟨iff_of_false nofun (opcode_ne_hlt_of_causeHolds hcause), fun _ => rfl⟩

/-- Settles O36: by induction on the budget, since every step of a RUNNING machine is answered. -/
theorem everyBoundedRunReachesAState : Obligations.EveryBoundedRunReachesAState := exists_runFor

/-- Settles O37: the jump sets `pc` to itself, so the step answers the very state, which is RUNNING. -/
theorem aJumpToItselfNeverEnds : Obligations.AJumpToItselfNeverEnds := by
  intro a ra s hn hrun hpc hself
  have hexec : exec (.jmp a) s = .next s := by
    have h := (Executes.jmp (s := s) (regOperand_of_eq hn)).exec_eq
    rwa [hself] at h
  have hruns := runFor_of_step_self ((runsAs_encode (.jmp a) s hrun hpc).trans hexec)
  refine ⟨hruns, ?_⟩
  rintro ⟨t, hterminal, n, hn⟩
  obtain rfl := Host.Outcome.next.inj ((hruns n).symm.trans hn)
  exact hterminal hrun

/-- Settles O43: the reset machine is RUNNING, without a record. -/
theorem resetMeetsTheInvariant : Obligations.ResetMeetsTheInvariant := inv_reset

/-- Settles O44: loading changes nothing but memory, and keeps its canonical form. -/
theorem everyLoadedMachineMeetsTheInvariant : Obligations.EveryLoadedMachineMeetsTheInvariant := by
  intro image s h
  unfold State.init at h
  split at h
  · have heq := State.storeBytes_eq State.reset loadBase image
    have hwf := State.storeBytes_wf loadBase image State.reset_mem_wf
    cases h
    rw [heq]
    exact inv_of_running hwf (.inl rfl) rfl rfl
  · cases h

/-- Settles O46: the end of the run meets the invariant and is not RUNNING. -/
theorem aRunEndsAtAHltOrAtAFaultingInstruction : Obligations.ARunEndsAtAHltOrAtAFaultingInstruction := by
  rintro s t hs ⟨hterminal, n, hn⟩
  have ht : Inv t := runFor_induction (fun _ _ => inv_of_step) hs hn
  cases hrun : t.run with
  | running => exact absurd hrun hterminal
  | halted => exact .inl ⟨rfl, ht.record.fault_eq_none (by simp [hrun]), ht.halted hrun⟩
  | error =>
    obtain ⟨f, hf⟩ := Option.isSome_iff_exists.1 (ht.record.1.1 hrun)
    obtain ⟨hop, hpc, hcause⟩ := ht.record.2 f hf
    exact .inr ⟨rfl, opcode_ne_hlt_of_causeHolds hcause, f, hf, hop, hpc, hcause⟩

end Sys2Proof.Claims

/-! PROOFS of the family `other`, the registers an instruction may write (`10_state.md` R13). The idea: what reads differently
after an update of one register is that register. -/

namespace Sys2Proof.Machine

open Sys2Proof.Claims

theorem eq_of_setReg_reg_ne {s : State} {r q : Reg} {v : Byte} (h : (s.setReg r v).reg q ≠ s.reg q) : q = r :=
  by_contra fun hne => h (State.setReg_reg_of_ne s v hne)

/-- POP writes two registers: its own, then the pointer. -/
theorem eq_or_eq_of_pop_reg_ne {s : State} {r q : Reg} {v : Byte} (h : (s.setReg r v).incSp.reg q ≠ s.reg q) :
    q = r ∨ q = Config.spIndex := by
  by_cases hq : (s.setReg r v).reg q = s.reg q
  · exact .inr (eq_of_setReg_reg_ne (hq ▸ h))
  · exact .inl (eq_of_setReg_reg_ne hq)

/-- An ALU result is written to the register of the operand that it names. -/
theorem dest_of_applyAlu_reg_ne {opcode : Byte} {ra rb q : Reg} {s : State} {res : AluResult}
    (h : (applyAlu opcode ra rb s res).reg q ≠ s.reg q) :
    (∃ v, res = .toA v ∧ q = ra) ∨ (∃ v, res = .toB v ∧ q = rb) := by
  cases res with
  | toA v => exact .inl ⟨v, rfl, eq_of_setReg_reg_ne h⟩
  | toB v => exact .inr ⟨v, rfl, eq_of_setReg_reg_ne h⟩
  | flags | divideByZero => exact absurd rfl h

/-! ## SUB and DIV write over the larger operand -/

theorem aluSub_dest {va vb v : Byte} :
    (aluSub va vb = .toA v → vb.toNat ≤ va.toNat) ∧ (aluSub va vb = .toB v → ¬ vb.toNat ≤ va.toNat) := by
  unfold aluSub
  split
  · next hle => exact ⟨fun _ => hle, nofun⟩
  · next hlt => exact ⟨nofun, fun _ => hlt⟩

theorem aluDiv_dest {va vb v : Byte} :
    (aluDiv va vb = .toA v → vb.toNat ≤ va.toNat) ∧ (aluDiv va vb = .toB v → ¬ vb.toNat ≤ va.toNat) := by
  unfold aluDiv
  split
  · next hle => exact ⟨fun _ => hle, by split <;> exact nofun⟩
  · next hlt => exact ⟨by split <;> exact nofun, fun _ => hlt⟩

theorem mayWrite_alu {op : AluOp} {a b opcode : Byte} {ra rb q : Reg} {s : State} (ha : regOperand a = some ra)
    (hb : regOperand b = some rb) (h : (applyAlu opcode ra rb s (alu op (s.reg ra) (s.reg rb))).reg q ≠ s.reg q) :
    MayWrite s q (op.instr a b) := by
  have hna : Names a ra := regOperand_eq_some.1 ha
  have hnb : Names b rb := regOperand_eq_some.1 hb
  obtain ⟨v, hres, rfl⟩ | ⟨v, hres, rfl⟩ := dest_of_applyAlu_reg_ne h
  · cases op with
    | add | mul => exact hna
    | sub => exact ⟨q, rb, hna, hnb, (if_pos (aluSub_dest.1 hres)).symm⟩
    | div => exact ⟨q, rb, hna, hnb, (if_pos (aluDiv_dest.1 hres)).symm⟩
    | cmp => cases hres
  · cases op with
    | add | mul | cmp => cases hres
    | sub => exact ⟨ra, q, hna, hnb, (if_neg (aluSub_dest.2 hres)).symm⟩
    | div => exact ⟨ra, q, hna, hnb, (if_neg (aluDiv_dest.2 hres)).symm⟩

theorem Executes.mayWrite {i : Instr} {s t : State} {q : Reg} (h : Executes i s t) (hne : t.reg q ≠ s.reg q) :
    MayWrite s q i := by
  cases h with
  | hlt | prn | jmp | jeq | jne | illegal => exact absurd rfl hne
  | ldi ha =>
    obtain rfl := eq_of_setReg_reg_ne hne
    exact regOperand_eq_some.1 ha
  | push | call => exact eq_of_setReg_reg_ne (s := s) hne
  | ret => exact eq_of_setReg_reg_ne (s := s) hne
  | pop ha =>
    obtain rfl | rfl := eq_or_eq_of_pop_reg_ne hne
    · exact .inl (regOperand_eq_some.1 ha)
    · exact .inr rfl
  | alu op ha hb => exact mayWrite_alu ha hb hne

end Sys2Proof.Machine

namespace Sys2Proof.Claims

open Sys2Proof.Machine

/-- Settles O32: the table of R13 against each effect on the registers. -/
theorem registersChangeOnlyAsTheTableSays : Obligations.RegistersChangeOnlyAsTheTableSays :=
  fun _ _ _ _ ht hne => (exec_eq_next.1 ht).mayWrite hne

end Sys2Proof.Claims

/-! PROOFS of the family `other`, the output stream (`10_state.md` R25). The idea: every effect carries another stream through, so
what it emits does not depend on the stream. -/

namespace Sys2Proof.Machine

open Sys2Proof.Claims

/-- What an instruction emits beside its effect on the rest of the state, whatever the stream held before. -/
def Emits (i : Instr) (s t : State) (emitted : List Byte) : Prop :=
  t.out = s.out ++ emitted ∧ (emitted = [] ∨ ∃ a ra, i = .prn a ∧ Names a ra ∧ emitted = [s.reg ra]) ∧
    ∀ o : List Byte, Executes i { s with out := o } { t with out := o ++ emitted }

theorem emits_nil {i : Instr} {s t : State} (hout : t.out = s.out)
    (h : ∀ o : List Byte, Executes i { s with out := o } { t with out := o }) : Emits i s t [] :=
  ⟨by rw [hout, List.append_nil], .inl rfl, fun o => (List.append_nil o).symm ▸ h o⟩

theorem applyAlu_withOut (opcode : Byte) (ra rb : Reg) (s : State) (res : AluResult) (o : List Byte) :
    applyAlu opcode ra rb { s with out := o } res = { applyAlu opcode ra rb s res with out := o } := by
  cases res <;> rfl

theorem emits_nil_alu {op : AluOp} {a b : Byte} {ra rb : Reg} {s : State} (ha : regOperand a = some ra)
    (hb : regOperand b = some rb) :
    Emits (op.instr a b) s (applyAlu (op.instr a b).opcode ra rb s (alu op (s.reg ra) (s.reg rb))) [] :=
  emits_nil (applyAlu_frame ..).2 fun o => applyAlu_withOut .. ▸ Executes.alu (s := { s with out := o }) op ha hb

theorem Executes.emits {i : Instr} {s t : State} (h : Executes i s t) : ∃ emitted, Emits i s t emitted := by
  cases h with
  | prn ha => exact ⟨_, rfl, .inr ⟨_, _, rfl, regOperand_eq_some.1 ha, rfl⟩, fun _ => .prn ha⟩
  | hlt => exact ⟨_, emits_nil rfl fun _ => .hlt⟩
  | ldi ha => exact ⟨_, emits_nil rfl fun _ => .ldi ha⟩
  | push ha => exact ⟨_, emits_nil rfl fun _ => .push ha⟩
  | pop ha => exact ⟨_, emits_nil rfl fun _ => .pop ha⟩
  | call ha => exact ⟨_, emits_nil rfl fun _ => .call ha⟩
  | ret => exact ⟨_, emits_nil rfl fun _ => .ret⟩
  | alu op ha hb => exact ⟨_, emits_nil_alu ha hb⟩
  | jmp ha => exact ⟨_, emits_nil rfl fun _ => .jmp ha⟩
  | jeq ha => exact ⟨_, emits_nil rfl fun _ => .jeq ha⟩
  | jne ha => exact ⟨_, emits_nil rfl fun _ => .jne ha⟩
  | illegal hwf => exact ⟨_, emits_nil rfl fun _ => .illegal hwf⟩

end Sys2Proof.Machine

namespace Sys2Proof.Claims

open Sys2Proof.Machine

/-- Settles O30: every effect but PRN's emits nothing, and all of them carry another stream through. -/
theorem outputIsAppendedByPrnAloneAndNeverRead : Obligations.OutputIsAppendedByPrnAloneAndNeverRead := by
  intro i s
  obtain ⟨t, ht⟩ := exists_executes i s
  obtain ⟨emitted, hout, hprn, hother⟩ := ht.emits
  exact ⟨t, emitted, ht.exec_eq, hout, hprn, fun o => (hother o).exec_eq⟩

end Sys2Proof.Claims

/-! PROOFS of the family `other`, the stack (`20_memory.md` R44, R46, `42_stack.md`, `43_call_ret.md`). The idea: all four stack
instructions share one push, `decSp` then `storeAtSp`, and an increment undoes its decrement. -/

namespace Sys2Proof.Machine

open Sys2Proof.Claims

/-! ## After a push -/

theorem pushed_load (s : State) (v addr : Byte) :
    (s.decSp.storeAtSp v).load addr = if addr = s.decSp.sp then v else s.load addr := by
  rw [State.storeAtSp, State.store_load, State.decSp_load]
  simp only [eq_comm]

theorem pushed_load_sp (s : State) (v : Byte) : (s.decSp.storeAtSp v).load s.decSp.sp = v := State.store_load_same ..

/-- An increment of the pointer undoes the decrement of a push. -/
theorem incSp_sp_of_decSp {s t : State} (h : t.sp = s.decSp.sp) : t.incSp.sp = s.sp := by
  rw [State.incSp_sp, h, State.decSp_sp, BitVec.sub_add_cancel]

theorem incSp_reg_of_decSp {s t : State} (h : ∀ q, t.reg q = s.decSp.reg q) (q : Reg) : t.incSp.reg q = s.reg q := by
  by_cases hq : Config.spIndex = q
  · subst hq
    exact incSp_sp_of_decSp (h _)
  · simp [h, hq]

theorem setReg_reg_self (s : State) (r q : Reg) : (s.setReg r (s.reg r)).reg q = s.reg q := by
  rw [State.setReg_reg]
  split
  · next hq => rw [hq]
  · rfl

/-- A pc that moved by `n` as a byte moved by `n` modulo 256. -/
theorem advances_of_pc_eq {n : Nat} {s t : State} (h : t.pc = s.pc + BitVec.ofNat 8 n) : Advances n s t := by
  simp [Advances, h]

end Sys2Proof.Machine

namespace Sys2Proof.Claims

open Sys2Proof.Machine

/-- Settles O33: a fetch after a push reads the pushed byte at the pointer and the old byte elsewhere. -/
theorem storesAreSeenByTheNextFetch : Obligations.StoresAreSeenByTheNextFetch := by
  intro a ra s t hn seen
  have ha : regOperand a = some ra := regOperand_of_eq hn
  constructor
  · intro h
    obtain rfl := (Executes.push ha).eq_of_exec h
    simp only [State.fetch, State.advance_load, pushed_load, seen]
  · intro h
    obtain rfl := (Executes.call ha).eq_of_exec h
    simp only [State.fetch, State.setPc_load, pushed_load, seen]

/-- Settles O34: POP finds the byte that `x[a]` still holds, register 7 included, so only its increment counts. -/
theorem pushThenPopRestoresEveryRegister : Obligations.PushThenPopRestoresEveryRegister := by
  intro a ra s hn
  have ha : regOperand a = some ra := regOperand_of_eq hn
  refine ⟨_, _, (Executes.push ha).exec_eq, (Executes.pop ha).exec_eq, fun r _ => ?_, ?_, rfl, rfl, rfl, rfl⟩
  · refine incSp_reg_of_decSp (s := s) (fun q => ?_) r
    refine Eq.trans ?_ (setReg_reg_self s.decSp ra q)
    rw [State.setReg_reg, State.setReg_reg]
    exact if_congr Iff.rfl (pushed_load_sp ..) rfl
  · exact advances_of_pc_eq (BitVec.add_assoc ..)

/-- Settles O35: RET takes the return address from the cell and undoes CALL's decrement. -/
theorem retResumesAfterTheCall : Obligations.RetResumesAfterTheCall := by
  intro a ra s t u hn ht hsp hload
  obtain rfl := (Executes.call (regOperand_of_eq hn)).eq_of_exec ht
  refine ⟨_, Executes.ret.exec_eq, advances_of_pc_eq ?_, ?_⟩
  · exact hload.trans (pushed_load_sp s (s.pc + 2))
  · exact incSp_sp_of_decSp hsp

end Sys2Proof.Claims

/-! PROOFS of the family `other`, the canonical form of the memory (`10_state.md` R30). The idea: the first listed address is the
least one that does not read as unlisted, so two lists that read alike begin alike. -/

namespace Sys2Proof.Machine.Memory

theorem lookup_of_lt {lo k : Nat} {m : Memory} (hm : wfFrom lo m = true) (hk : k < lo) : lookup m k = unlisted := by
  induction m generalizing lo with
  | nil => rfl
  | cons c m ih =>
    obtain ⟨j, w⟩ := c
    obtain ⟨hlo, -, -, ht⟩ := (wfFrom_cons ..).1 hm
    rw [lookup_cons, if_neg (by omega)]
    exact ih ht (by omega)

theorem lookup_head_ne {lo j : Nat} {w : Byte} {m : Memory} (hm : wfFrom lo ((j, w) :: m) = true) :
    lookup ((j, w) :: m) j ≠ unlisted := by
  obtain ⟨-, -, hw, -⟩ := (wfFrom_cons ..).1 hm
  simpa using hw

/-- No address before the first listed one is listed. -/
theorem head_le_of_lookup_ne {lo j k : Nat} {w : Byte} {m : Memory} (hm : wfFrom lo ((j, w) :: m) = true)
    (hk : lookup ((j, w) :: m) k ≠ unlisted) : j ≤ k := by
  obtain ⟨-, hj, hw, ht⟩ := (wfFrom_cons ..).1 hm
  by_contra hlt
  exact hk (lookup_of_lt (lo := j) ((wfFrom_cons ..).2 ⟨le_rfl, hj, hw, ht⟩) (by omega))

theorem head_lt_memSize {lo j : Nat} {w : Byte} {m : Memory} (hm : wfFrom lo ((j, w) :: m) = true) : j < Config.memSize :=
  ((wfFrom_cons ..).1 hm).2.1

theorem eq_of_lookup_eq {lo lo' : Nat} {m m' : Memory} (hm : wfFrom lo m = true) (hm' : wfFrom lo' m' = true)
    (h : ∀ k < Config.memSize, lookup m k = lookup m' k) : m = m' := by
  induction m generalizing lo lo' m' with
  | nil =>
    cases m' with
    | nil => rfl
    | cons c' m' => exact absurd (h c'.1 (head_lt_memSize hm')).symm (lookup_head_ne hm')
  | cons c m ih =>
    cases m' with
    | nil => exact absurd (h c.1 (head_lt_memSize hm)) (lookup_head_ne hm)
    | cons c' m' =>
      obtain ⟨j, w⟩ := c
      obtain ⟨j', w'⟩ := c'
      have hj' : j' ≤ j := head_le_of_lookup_ne hm' (h j (head_lt_memSize hm) ▸ lookup_head_ne hm)
      have hj : j ≤ j' := head_le_of_lookup_ne hm (h j' (head_lt_memSize hm') ▸ lookup_head_ne hm')
      obtain rfl : j = j' := le_antisymm hj hj'
      obtain rfl : w = w' := by simpa using h j (head_lt_memSize hm)
      obtain ⟨-, -, -, ht⟩ := (wfFrom_cons ..).1 hm
      obtain ⟨-, -, -, ht'⟩ := (wfFrom_cons ..).1 hm'
      refine congrArg _ (ih ht ht' fun k hk => ?_)
      by_cases hkj : j = k
      · rw [lookup_of_lt ht (by omega), lookup_of_lt ht' (by omega)]
      · simpa [hkj] using h k hk

end Sys2Proof.Machine.Memory

namespace Sys2Proof.Claims

open Sys2Proof.Machine

/-- Settles O39: every address below 256 is a byte's, so reading alike is looking up alike. -/
theorem canonicalMemoriesThatReadAlikeAreEqual : Obligations.CanonicalMemoriesThatReadAlikeAreEqual := by
  intro m m' hm hm' h
  refine Memory.eq_of_lookup_eq hm hm' fun k hk => ?_
  have hread := h (BitVec.ofNat 8 k)
  rwa [Memory.read, Memory.read, BitVec.toNat_ofNat, Nat.mod_eq_of_lt hk] at hread

end Sys2Proof.Claims

/-! PROOFS of the family `other`, the instructions one by one (`40_dispatch.md` R64 to `45_jumps.md` R86): result, frame and
encoding. The idea: `Executes` names the next state of each, whose frame is by definition and whose result is one lemma about the
operation it is made of; `runsAs_encode` is the encoding of all of them. -/

namespace Sys2Proof.Machine

open Sys2Proof.Claims

/-! ## Registers and the pointer, as numbers -/

theorem setReg_reg_of_not_mem {s : State} {r q : Reg} {v : Byte} (h : q ∉ [r]) : (s.setReg r v).reg q = s.reg q :=
  State.setReg_reg_of_ne s v (List.mem_singleton.not.1 h)

theorem setReg_trunc8_reg_toNat (s : State) (r : Reg) (n : Nat) : ((s.setReg r (trunc8 n)).reg r).toNat = n % 256 := by
  rw [State.setReg_reg_same, trunc8_toNat]

theorem decSp_sp_toNat (s : State) : s.decSp.sp.toNat = (s.sp.toNat + 255) % 256 := by
  rw [State.decSp_sp]
  bv_omega

theorem incSp_sp_toNat {s : State} {v : Byte} (h : s.sp = v) : s.incSp.sp.toNat = (v.toNat + 1) % 256 := by
  rw [State.incSp_sp, h]
  exact BitVec.toNat_add ..

/-- Register 7 read after the decrement is the decremented pointer (D14). -/
theorem decSp_reg_eq_ite (s : State) (r : Reg) : s.decSp.reg r = if r = 7 then s.decSp.sp else s.reg r := by
  rw [State.decSp_reg, State.decSp_sp]
  exact if_congr eq_comm rfl rfl

/-! ## The effects that several instructions share -/

theorem exists_raised_of_registerAbove7 {i : Instr} {a : Byte} (s : State) (hi : i.registerFields = [a]) (ha : 7 < a.toNat) :
    ∃ t, exec i s = .next t ∧ Raised .invalidRegisterIndex i.opcode s t := by
  refine ⟨_, exec_of_not_wellFormed s fun hwf => ?_, raised_raise ..⟩
  obtain ⟨r, hr⟩ := (wellFormed_of_one_register hi).1 hwf
  rw [regOperand_eq_none.2 ha] at hr
  cases hr

theorem pushed_load_of_ne {s : State} {v addr : Byte} (h : addr ≠ s.decSp.sp) :
    (s.decSp.storeAtSp v).load addr = s.load addr := (pushed_load s v addr).trans (if_neg h)

theorem exec_alu_eq {op : AluOp} {a b : Byte} {ra rb : Reg} {s : State} {res : AluResult} (hna : Names a ra) (hnb : Names b rb)
    (hres : alu op (s.reg ra) (s.reg rb) = res) :
    exec (op.instr a b) s = .next (applyAlu (op.instr a b).opcode ra rb s res) :=
  hres ▸ (Executes.alu op (regOperand_of_eq hna) (regOperand_of_eq hnb)).exec_eq

/-- ADD and MUL: the exact value, truncated, goes to register `a` (R77, R79). -/
theorem exec_alu_toA {op : AluOp} {n : Nat} {a b : Byte} {ra rb : Reg} {s : State} (hna : Names a ra) (hnb : Names b rb)
    (hres : alu op (s.reg ra) (s.reg rb) = .toA (trunc8 n)) :
    ∃ t, exec (op.instr a b) s = .next t ∧ (t.reg ra).toNat = n % 256 ∧
      KeepsRegsBut [ra] s t ∧ Advances 3 s t ∧ t.fl = s.fl ∧ KeepsMemory s t ∧ t.out = s.out ∧ KeepsStatus s t :=
  ⟨_, exec_alu_eq hna hnb hres, setReg_trunc8_reg_toNat .., fun _ => setReg_reg_of_not_mem, advances_of_pc_eq rfl,
    rfl, fun _ => rfl, rfl, rfl, rfl⟩

/-- SUB and DIV: `f` of the larger and the smaller value goes to the register that held the larger, `a` on a tie (D5). -/
theorem exec_alu_over_larger {op : AluOp} {f : Nat → Nat → Nat} (hf : ∀ m n, f m n ≤ m) {a b : Byte} {ra rb : Reg}
    {s : State} (hna : Names a ra) (hnb : Names b rb)
    (hle : (s.reg rb).toNat ≤ (s.reg ra).toNat →
      alu op (s.reg ra) (s.reg rb) = .toA (trunc8 (f (s.reg ra).toNat (s.reg rb).toNat)))
    (hlt : (s.reg ra).toNat < (s.reg rb).toNat →
      alu op (s.reg ra) (s.reg rb) = .toB (trunc8 (f (s.reg rb).toNat (s.reg ra).toNat))) :
    ∃ t, exec (op.instr a b) s = .next t ∧
      ((s.reg ra).toNat ≥ (s.reg rb).toNat →
        (t.reg ra).toNat = f (s.reg ra).toNat (s.reg rb).toNat ∧ KeepsRegsBut [ra] s t) ∧
      ((s.reg ra).toNat < (s.reg rb).toNat →
        (t.reg rb).toNat = f (s.reg rb).toNat (s.reg ra).toNat ∧ KeepsRegsBut [rb] s t) ∧
      Advances 3 s t ∧ t.fl = s.fl ∧ KeepsMemory s t ∧ t.out = s.out ∧ KeepsStatus s t := by
  have written (r : Reg) (v : Byte) (n : Nat) :
      ((s.setReg r (trunc8 (f v.toNat n))).reg r).toNat = f v.toNat n :=
    (setReg_trunc8_reg_toNat ..).trans (Nat.mod_eq_of_lt ((hf ..).trans_lt v.isLt))
  obtain h | h := le_or_gt (s.reg rb).toNat (s.reg ra).toNat
  · exact ⟨_, exec_alu_eq hna hnb (hle h), fun _ => ⟨written .., fun _ => setReg_reg_of_not_mem⟩,
      fun hgt => absurd h (by omega), advances_of_pc_eq rfl, rfl, fun _ => rfl, rfl, rfl, rfl⟩
  · exact ⟨_, exec_alu_eq hna hnb (hlt h), fun hge => absurd h (by omega),
      fun _ => ⟨written .., fun _ => setReg_reg_of_not_mem⟩, advances_of_pc_eq rfl, rfl, fun _ => rfl, rfl, rfl, rfl⟩

end Sys2Proof.Machine

namespace Sys2Proof.Claims

open Sys2Proof.Machine

/-! ## HLT, LDI, PRN -/

/-- Settles O14: `halt` sets the run state alone. -/
theorem hltEntersHaltedAndChangesNothingElse : Obligations.HltEntersHaltedAndChangesNothingElse :=
  ⟨fun _ => ⟨_, Executes.hlt.exec_eq, rfl, rfl, fun _ _ => rfl, rfl, rfl, fun _ => rfl, rfl⟩, runsAs_encode .hlt⟩

/-- Settles O15: `setReg` of the immediate, on a legal register byte. -/
theorem ldiLoadsItsImmediate : Obligations.LdiLoadsItsImmediate := by
  refine fun a imm => ⟨fun ra s hn => ?_, fun s => exists_raised_of_registerAbove7 (i := .ldi a imm) s rfl,
    runsAs_encode (.ldi a imm)⟩
  exact ⟨_, (Executes.ldi (regOperand_of_eq hn)).exec_eq, State.setReg_reg_same .., fun _ => setReg_reg_of_not_mem,
    advances_of_pc_eq rfl, rfl, fun _ => rfl, rfl, rfl, rfl⟩

/-- Settles O16: `output` of the register, on a legal register byte. -/
theorem prnAppendsTheRegisterToTheOutput : Obligations.PrnAppendsTheRegisterToTheOutput := by
  refine fun a => ⟨fun ra s hn => ?_, fun s => exists_raised_of_registerAbove7 (i := .prn a) s rfl, runsAs_encode (.prn a)⟩
  exact ⟨_, (Executes.prn (regOperand_of_eq hn)).exec_eq, rfl, fun _ _ => rfl, advances_of_pc_eq rfl, rfl, fun _ => rfl,
    rfl, rfl⟩

/-! ## PUSH, POP, CALL, RET -/

/-- Settles O17: the pushed byte is `x[a]` as it reads after the decrement. -/
theorem pushDecrementsThenStores : Obligations.PushDecrementsThenStores := by
  refine ⟨fun a ra s hn => ?_, fun a => runsAs_encode (.push a)⟩
  exact ⟨_, (Executes.push (regOperand_of_eq hn)).exec_eq, decSp_sp_toNat s, rfl,
    (pushed_load_sp ..).trans (decSp_reg_eq_ite s ra), fun _ => pushed_load_of_ne, fun _ => setReg_reg_of_not_mem,
    advances_of_pc_eq rfl, rfl, rfl, rfl, rfl⟩

/-- Settles O18: `x[a]` is written before the pointer is incremented, so for register 7 the popped byte is. -/
theorem popLoadsThenIncrements : Obligations.PopLoadsThenIncrements := by
  refine ⟨fun a ra s hn => ?_, fun a => runsAs_encode (.pop a)⟩
  refine ⟨_, (Executes.pop (regOperand_of_eq hn)).exec_eq, fun hne => ⟨?_, ?_⟩, ?_, fun q hq => ?_, fun _ => rfl,
    advances_of_pc_eq rfl, rfl, rfl, rfl, rfl⟩
  · exact (State.setReg_reg_of_ne _ _ hne).trans (State.setReg_reg_same ..)
  · exact incSp_sp_toNat (State.setReg_reg_of_ne s _ hne.symm)
  · rintro rfl
    exact incSp_sp_toNat (State.setReg_reg_same ..)
  · exact by_contra fun hne => hq (by simpa using eq_or_eq_of_pop_reg_ne hne)

/-- Settles O19: the push of the return address, then the jump to `x[a]` as it reads after the decrement. -/
theorem callStoresTheReturnAddressAndJumps : Obligations.CallStoresTheReturnAddressAndJumps := by
  refine ⟨fun a ra s hn => ?_, fun a => runsAs_encode (.call a)⟩
  have hstored : ((s.decSp.storeAtSp (s.pc + 2)).load s.decSp.sp).toNat = (s.pc.toNat + 2) % 256 := by
    rw [pushed_load_sp]
    exact BitVec.toNat_add ..
  exact ⟨_, (Executes.call (regOperand_of_eq hn)).exec_eq, decSp_sp_toNat s, rfl, hstored, fun _ => pushed_load_of_ne,
    decSp_reg_eq_ite s ra, fun _ => setReg_reg_of_not_mem, rfl, rfl, rfl, rfl⟩

/-- Settles O20: the byte at the pointer, read before the increment. -/
theorem retPopsThePc : Obligations.RetPopsThePc :=
  ⟨fun _ => ⟨_, Executes.ret.exec_eq, rfl, incSp_sp_toNat rfl, fun _ => setReg_reg_of_not_mem, fun _ => rfl, rfl, rfl, rfl, rfl⟩,
    runsAs_encode .ret⟩

/-! ## The ALU -/

/-- Settles O21: the exact sum of the old values, truncated. -/
theorem addWritesTheSumModulo256 : Obligations.AddWritesTheSumModulo256 :=
  ⟨fun _ _ _ _ _ hna hnb => exec_alu_toA (op := .add) hna hnb rfl, fun a b => runsAs_encode (.add a b)⟩

/-- Settles O22: the difference never exceeds the larger value, so nothing is truncated. -/
theorem subWritesTheDifferenceOverTheLarger : Obligations.SubWritesTheDifferenceOverTheLarger :=
  ⟨fun _ _ _ _ _ hna hnb => exec_alu_over_larger (op := .sub) Nat.sub_le hna hnb aluSub_of_le aluSub_of_lt,
    fun a b => runsAs_encode (.sub a b)⟩

/-- Settles O23: the exact product of the old values, truncated. -/
theorem mulWritesTheProductModulo256 : Obligations.MulWritesTheProductModulo256 :=
  ⟨fun _ _ _ _ _ hna hnb => exec_alu_toA (op := .mul) hna hnb rfl, fun a b => runsAs_encode (.mul a b)⟩

/-- Settles O24: the quotient never exceeds the larger value, so nothing is truncated. -/
theorem divWritesTheQuotientOverTheLarger : Obligations.DivWritesTheQuotientOverTheLarger :=
  ⟨fun _ _ _ _ _ hna hnb hmin => exec_alu_over_larger (op := .div) Nat.div_le_self hna hnb
      (fun h => aluDiv_of_le h (by omega)) (fun h => aluDiv_of_lt h (by omega)),
    fun a b => runsAs_encode (.div a b)⟩

/-- Settles O9: the divisor is the smaller value, and a zero divisor is the ALU's one fault. -/
theorem divisionByZeroEndsInError : Obligations.DivisionByZeroEndsInError :=
  fun _ _ _ _ s hna hnb hmin =>
    ⟨_, exec_alu_eq (op := .div) hna hnb (alu_eq_divideByZero.2 ⟨rfl, hmin⟩), raised_raise .divideByZero opcDiv s⟩

/-- Settles O25: one comparison lemma for each order of the two values. -/
theorem cmpSetsExactlyOneFlag : Obligations.CmpSetsExactlyOneFlag := by
  refine ⟨fun a b ra rb s hna hnb => ?_, fun a b => runsAs_encode (.cmp a b)⟩
  exact ⟨_, exec_alu_eq (op := .cmp) hna hnb rfl, compareFlags_of_lt, compareFlags_of_gt, compareFlags_of_eq, fun _ _ => rfl,
    advances_of_pc_eq rfl, fun _ => rfl, rfl, rfl, rfl⟩

/-! ## JMP, JEQ, JNE -/

/-- Settles O26: `setPc` alone. -/
theorem jmpSetsThePcFromTheRegister : Obligations.JmpSetsThePcFromTheRegister := by
  refine ⟨fun a ra s hn => ?_, fun a => runsAs_encode (.jmp a)⟩
  exact ⟨_, (Executes.jmp (regOperand_of_eq hn)).exec_eq, rfl, fun _ _ => rfl, rfl, fun _ => rfl, rfl, rfl, rfl⟩

/-- Settles O27: `setPc` alone, by EQUAL. -/
theorem jeqJumpsWhenEqualIsSet : Obligations.JeqJumpsWhenEqualIsSet := by
  refine ⟨fun a ra s hn => ?_, fun a => runsAs_encode (.jeq a)⟩
  exact ⟨_, (Executes.jeq (regOperand_of_eq hn)).exec_eq, fun hE => if_pos hE,
    fun hE => advances_of_pc_eq (if_neg (by simp [hE])), fun _ _ => rfl, rfl, fun _ => rfl, rfl, rfl, rfl⟩

/-- Settles O28: `setPc` alone, by EQUAL negated. -/
theorem jneJumpsWhenEqualIsClear : Obligations.JneJumpsWhenEqualIsClear := by
  refine ⟨fun a ra s hn => ?_, fun a => runsAs_encode (.jne a)⟩
  exact ⟨_, (Executes.jne (regOperand_of_eq hn)).exec_eq, fun hE => if_pos (by simp [hE]),
    fun hE => advances_of_pc_eq (if_neg (by simp [hE])), fun _ _ => rfl, rfl, fun _ => rfl, rfl, rfl, rfl⟩

/-! ## Terminal states, reset and loading -/

/-- Settles O11: only a RUNNING state has a step. -/
theorem terminalStatesHaveNoStep : Obligations.TerminalStatesHaveNoStep :=
  fun _ => ⟨fun h => ⟨step_halted h, fun n => runFor_terminal n (by simp [h])⟩,
    fun h => ⟨step_error h, fun n => runFor_terminal n (by simp [h])⟩⟩

/-- Settles O40: the literal of the reset state, read field by field. -/
theorem resetLeavesTheValuesOfTheSpec : Obligations.ResetLeavesTheValuesOfTheSpec :=
  ⟨by decide, rfl, rfl, rfl, fun _ => rfl, rfl, rfl, rfl, State.init_of_length_le (Nat.zero_le _)⟩

/-- Settles O42: the length check of `init`. -/
theorem initRefusesAnImageOver256Bytes : Obligations.InitRefusesAnImageOver256Bytes :=
  fun _ h => if_neg (Nat.not_le.2 h)

end Sys2Proof.Claims
